-- ==== Sys2Proof/Word.lean ====
section
/-! DEFINITION. The words of the machine: registers of 32 bits (XLEN, 00_scope.md R5), bytes, the 16-bit field of an
instruction. A register holds a bit pattern; R7 reads it as a two's-complement number where a rule needs one. -/

namespace Sys2Proof

/-- A 32-bit pattern: a general register or the remainder register (R20, R31). -/
abbrev Word := BitVec 32

/-- A byte of the program (R50). -/
abbrev Byte := BitVec 8

/-- The 16-bit operand field: LOAD's immediate, or the filler of JEQ and JNEQ (R71). -/
abbrev Half := BitVec 16

/-- INT_MIN of R7. -/
def intMin : Word := 0x80000000#32

/-- INT_MAX of R7. -/
def intMax : Word := 0x7FFFFFFF#32

end Sys2Proof
end

