-- ==== Sys2Proof/Config.lean ====
section
/-! DEFINITION. The parameters of the hardware (00_scope.md R5). NREG = 32, XLEN = 32, REM_WIDTH = 32, OPC_BITS = 8 and
IMM_BITS = 16 are fixed and stand in the types; the other parameters are here. PORT_MAP is out of scope (R4, R250). -/

namespace Sys2Proof

/-- The 17 mnemonics of R3, the domain of OPCODE_MAP. -/
inductive Op where
  | load | add | sub | mul | div | hlt | jmp | jmpf | jmpb
  | eq | neq | gt | lt | gtq | ltq | jeq | jneq
deriving DecidableEq, Repr

/-- Every mnemonic, in the order of the table of R76. -/
def Op.all : List Op :=
  [.load, .add, .sub, .mul, .div, .hlt, .jmp, .jmpf, .jmpb, .eq, .neq, .gt, .lt, .gtq, .ltq, .jeq, .jneq]

/-- The parameter OPCODE_MAP of R76: "any injective map from the 17 mnemonics to bytes". -/
structure OpcodeMap where
  byteOf : Op → Byte
  injective : ∀ a b, byteOf a = byteOf b → a = b

/-- The byte values of the default OPCODE_MAP, the table of R76 (92_eei_decisions.md D2).
DESIGN CHOICE (log 1): the spec's default is the map the machine runs under. Unsafe: hardware with other opcode
bytes decodes other instructions. -/
def Config.defaultByte : Op → Byte
  | .load => 0x00 | .add => 0x01 | .sub => 0x02 | .mul => 0x03 | .div => 0x04
  | .hlt => 0x05 | .jmp => 0x06 | .jmpf => 0x07 | .jmpb => 0x08
  | .eq => 0x09 | .neq => 0x0A | .gt => 0x0B | .lt => 0x0C | .gtq => 0x0D | .ltq => 0x0E
  | .jeq => 0x0F | .jneq => 0x10

/-- The OPCODE_MAP the machine runs under: the spec's default (R76; log 1). -/
def Config.opcodeMap : OpcodeMap where
  byteOf := Config.defaultByte
  injective := by
    intro a b h
    cases a <;> cases b <;> first | rfl | exact absurd h (by decide)

/-- MAX_PROG_LEN of R5: the longest program `load` accepts. -/
def Config.maxProgLen : Nat := 2 ^ 32 - 1

/-- PC_WIDTH of R5: the bits that hold every value of `pc` (R27). -/
abbrev Config.pcWidth : Nat := 33

end Sys2Proof
end

