-- ==== Sys2Proof/Machine/State.lean ====
section
/-! DEFINITION. The state of the core (10_state.md), as plain data, the state after reset, and the reasons a Lean step could
stop. -/

namespace Sys2Proof.Machine

/-- The CAUSE field of STATUS (R32). Codes 9 to 15 are "never produced" and have no constructor (log 8). -/
inductive Cause where
  /-- 0: not halted. -/
  | running
  /-- 1: HLT, a clean stop. -/
  | halt
  /-- 2: END, a step began at or beyond the end of the program: a clean stop. -/
  | endOfProgram
  /-- 3: the opcode byte is not in OPCODE_MAP. -/
  | illegalOpcode
  /-- 4: the instruction runs past the end of the program. -/
  | truncated
  /-- 5: a register-index byte is 32 or more. -/
  | badRegister
  /-- 6: DIV by zero. -/
  | divByZero
  /-- 7: DIV of INT_MIN by -1. -/
  | divOverflow
  /-- 8: a jump target below 0. -/
  | jumpUnderflow
deriving DecidableEq, Repr

/-- The STATUS register (R32), its two fields; Status.word in Machine/Ops.lean is its 16-bit view. -/
structure Status where
  cause : Cause
  info : Byte
deriving DecidableEq, Repr

/-- The program store (R50): `len` is L, the number of bytes of the loaded program. `cells` lists the bytes that are not
zero, at strictly rising addresses below `len`; an address below `len` that is not listed holds the byte 0
(Memory.unlisted), and an address at or beyond `len` holds nothing (R57). DESIGN CHOICE (log 2): one canonical
form, so that equal programs are equal data. -/
structure Memory where
  cells : List Host.Cell
  len : Nat
deriving DecidableEq, Repr

/-- The whole state of the core. -/
structure State where
  /-- The general registers x[0] to x[31] (R20). -/
  x : Vector Word 32
  /-- The program counter, a natural number (R24, R27; log 7). -/
  pc : Nat
  /-- The remainder register (R31). -/
  rem : Word
  /-- The equal flag (R30). -/
  eq : Bool
  /-- The STATUS register (R32); the core is halted exactly when its cause is not RUNNING (R33). -/
  status : Status
  /-- The loaded program (R36). -/
  prog : Memory
deriving DecidableEq, Repr

/-- Why a Lean step could stop with a fault. The faults of the SPEC (R212) are not here: they are next states with STATUS
written (R213). -/
inductive Fault where
  /-- A read of the program store at an address at or beyond L, where the spec says nothing exists (R57). Raised by
  Memory.read. R53 says no step performs such a read, and no step of the model raises it. Safe: the model would stop. -/
  | outsideProgram (addr : Nat)
deriving DecidableEq, Repr

/-- Why a Lean step could be refused. -/
inductive Refusal where
  /-- An instruction whose arm in Machine/Dispatch.lean gives it no meaning. Raised by no arm: all 17 instructions have
  their meaning. Safe: the model would stop. -/
  | notModelled (mnemonic : String)
deriving DecidableEq, Repr

/-- The state after reset, `new()` (R240): every field at the value the rule gives. -/
def State.reset : State where
  x := Vector.replicate 32 0#32
  pc := 0
  rem := 0#32
  eq := false
  status := ⟨.running, 0#8⟩
  prog := ⟨[], 0⟩

end Sys2Proof.Machine
end

