-- ==== Sys2Proof/Machine/Operands.lean ====
section
/-! DEFINITION. Operand forms and the integer reading of patterns (00_scope.md R7, R8; 30_encoding.md R74, R75). -/

namespace Sys2Proof.Machine

/-- `sval(b)` of R7: the two's-complement value. -/
def sval (b : Word) : Int := b.toInt

/-- `uval(b)` of R7: the unsigned value. -/
def uval (b : Word) : Nat := b.toNat

/-- `bits32(n)` of R7: the pattern whose unsigned value is `n mod 2^32`, for every integer `n`. -/
def bits32 (n : Int) : Word := BitVec.ofInt 32 n

/-- `zext_32` of R8, the widening of LOAD's immediate (R74). -/
def zext32 (h : Half) : Word := h.zeroExtend 32

/-- The register a register-index byte names: x[b] when b is at most 31, none otherwise (R22, R75). -/
def regIndex (b : Byte) : Option (Fin 32) := if h : b.toNat < 32 then some ⟨b.toNat, h⟩ else none

end Sys2Proof.Machine
end

