-- ==== Sys2Proof/Machine/Ops.lean ====
section
/-! DEFINITION. The named operations over memory, registers and STATUS: reading the program, writing one field, taking a fault
(the core's only exceptions, 60_exceptions.md) and leaving a halt. -/

namespace Sys2Proof.Machine

/-! ## The program store (20_memory.md) -/

/-- What an address below L that `cells` does not list reads as (log 2). -/
def Memory.unlisted : Byte := 0#8

/-- The byte that a list of cells gives an address. -/
def lookupCell (cells : List Host.Cell) (a : Nat) : Byte :=
  match cells with
  | [] => Memory.unlisted
  | c :: rest => if c.1 = a then c.2 else lookupCell rest a

/-- `MemRead(a, 1)` (R9, R53): the byte at address `a`, which must be below L. -/
def Memory.read (m : Memory) (a : Nat) : Except Fault Byte :=
  if a < m.len then .ok (lookupCell m.cells a) else .error (.outsideProgram a)

/-- `n` bytes from address `a` on, in increasing address order (R54). -/
def Memory.readBytes (m : Memory) (a : Nat) : Nat → Except Fault (List Byte)
  | 0 => .ok []
  | n + 1 =>
    match m.read a with
    | .error f => .error f
    | .ok b =>
      match m.readBytes (a + 1) n with
      | .error f => .error f
      | .ok bs => .ok (b :: bs)

/-- The cell for a byte, none where the byte is what an unlisted address reads as. -/
def cellFor (a : Nat) (b : Byte) : List Host.Cell := if b = Memory.unlisted then [] else [(a, b)]

/-- Put a byte at an address, keeping rising addresses and listing no byte that an unlisted address reads as. -/
def putCell (cells : List Host.Cell) (a : Nat) (b : Byte) : List Host.Cell :=
  match cells with
  | [] => cellFor a b
  | c :: rest =>
    if a < c.1 then cellFor a b ++ c :: rest
    else if c.1 = a then cellFor a b ++ rest
    else c :: putCell rest a b

/-- The cells of a string of bytes that starts at address `a`. -/
def cellsFrom (a : Nat) (bs : List Byte) : List Host.Cell :=
  match bs with
  | [] => []
  | b :: rest => cellFor a b ++ cellsFrom (a + 1) rest

/-- The program store that holds exactly the given bytes, at addresses 0, 1, … (R50, R52). -/
def Memory.ofBytes (bs : List Byte) : Memory := ⟨cellsFrom 0 bs, bs.length⟩

/-- Put a string of bytes at consecutive addresses from `a` on. -/
def putCells (cells : List Host.Cell) (a : Nat) (bs : List Byte) : List Host.Cell :=
  match bs with
  | [] => cells
  | b :: rest => putCells (putCell cells a b) (a + 1) rest

/-- The program store with the given bytes from address `a` on, made long enough to hold them. No instruction does this
(R53); State.withFetchWord stands for a load from outside (log 6). -/
def Memory.place (m : Memory) (a : Nat) (bs : List Byte) : Memory :=
  ⟨putCells m.cells a bs, max m.len (a + bs.length)⟩

/-- Addresses rise strictly from `lo` on, stay below `len`, and no byte is what an unlisted address reads as. -/
def cellsOk (lo len : Nat) (cells : List Host.Cell) : Bool :=
  match cells with
  | [] => true
  | c :: rest => decide (lo ≤ c.1) && decide (c.1 < len) && decide (c.2 ≠ Memory.unlisted) && cellsOk (c.1 + 1) len rest

/-- The canonical form of the program store (log 2). -/
def Memory.wf (m : Memory) : Bool := cellsOk 0 m.len m.cells

/-! ## STATUS (10_state.md R32) -/

/-- The CAUSE codes of the table of R32. -/
def Cause.code : Cause → BitVec 4
  | .running => 0
  | .halt => 1
  | .endOfProgram => 2
  | .illegalOpcode => 3
  | .truncated => 4
  | .badRegister => 5
  | .divByZero => 6
  | .divOverflow => 7
  | .jumpUnderflow => 8

/-- The causes that the table of R32 calls a fault. -/
def Cause.isFault : Cause → Bool
  | .running => false
  | .halt => false
  | .endOfProgram => false
  | .illegalOpcode => true
  | .truncated => true
  | .badRegister => true
  | .divByZero => true
  | .divOverflow => true
  | .jumpUnderflow => true

/-- STATUS as the host reads it: CAUSE in bits 3:0, bits 7:4 zero, INFO in bits 15:8 (R32). -/
def Status.word (st : Status) : BitVec 16 := st.info ++ (0#4 ++ st.cause.code)

/-- Halted: CAUSE is not RUNNING (R33). -/
def State.halted (s : State) : Bool := decide (s.status.cause ≠ .running)

/-! ## One field at a time -/

/-- `x[i]` (R9). -/
def State.reg (s : State) (i : Fin 32) : Word := s.x[i]

/-- `x[i] <- v` (R9). -/
def State.setReg (s : State) (i : Fin 32) (v : Word) : State := { s with x := s.x.set i v }

/-- `pc <- t` (R9). -/
def State.setPc (s : State) (t : Nat) : State := { s with pc := t }

/-- `rem <- v` (R9). -/
def State.setRem (s : State) (v : Word) : State := { s with rem := v }

/-- `eq <- b` (R9). -/
def State.setEq (s : State) (b : Bool) : State := { s with eq := b }

/-- STATUS <- (cause, info) (R32). -/
def State.setStatus (s : State) (c : Cause) (info : Byte) : State := { s with status := ⟨c, info⟩ }

/-- Replace the program. -/
def State.setProg (s : State) (m : Memory) : State := { s with prog := m }

/-- `pc <- a0 + n` (R26), `pc` being a0 while an instruction executes (R25). -/
def State.advance (s : State) (n : Nat) : State := s.setPc (s.pc + n)

/-! ## Stops (60_exceptions.md) -/

/-- `raise Fault(cause, info)` (R213): no register, `rem` or `eq` is written, `pc` stays a0, STATUS records the cause. -/
def State.raiseFault (s : State) (c : Cause) (info : Byte) : State := s.setStatus c info

/-- The ILLEGAL_OPCODE fault: `pc <- a0 + 1`, STATUS <- (ILLEGAL_OPCODE, b) (R82, R213). -/
def State.illegalOpcode (s : State) (b : Byte) : State := (s.advance 1).raiseFault .illegalOpcode b

/-- `halt(cause)` (R9): a clean stop, HALT or END, with INFO 0 (R32). -/
def State.haltWith (s : State) (c : Cause) : State := s.setStatus c 0#8

/-- Leaving a halt: STATUS <- (RUNNING, 0). There is no return instruction; only `load` does this (R215, R242). -/
def State.resume (s : State) : State := s.setStatus .running 0#8

/-! ## Shared shapes of the meanings -/

/-- Check a register-index byte: go on with the register it names, or fault BAD_REGISTER with the byte (R84). -/
def State.withReg (s : State) (b : Byte) (k : Fin 32 → State) : State :=
  match regIndex b with
  | some i => k i
  | none => s.raiseFault .badRegister b

/-- Format RRR: check rs1, rs2, rd in encoding order (R84), then go on with the two values and the destination. -/
def State.withRRR (s : State) (rs1 rs2 rd : Byte) (k : Word → Word → Fin 32 → State) : State :=
  s.withReg rs1 fun i => s.withReg rs2 fun j => s.withReg rd fun d => k (s.reg i) (s.reg j) d

/-- Format RRX: check rs1, rs2 in encoding order, write the relation of the two values to `eq`, and pass 4 bytes
(R170, R171). -/
def State.compare (s : State) (rs1 rs2 : Byte) (rel : Word → Word → Bool) : State :=
  s.withReg rs1 fun i => s.withReg rs2 fun j => (s.setEq (rel (s.reg i) (s.reg j))).advance 4

/-- The target check of R151: a target below 0 faults JUMP_UNDERFLOW, any other becomes `pc`. -/
def State.jumpTo (s : State) (t : Int) : State :=
  if t < 0 then s.raiseFault .jumpUnderflow 0#8 else s.setPc t.toNat

/-! ## Host operations on the state (70_reset_and_hazards.md) -/

/-- `load(program)` (R242): the program is replaced and STATUS becomes (RUNNING, 0); nothing else changes. A program longer
than MAX_PROG_LEN is refused and nothing changes (R243). -/
def State.load (s : State) (bs : List Byte) : State :=
  if bs.length ≤ Config.maxProgLen then (s.setProg (Memory.ofBytes bs)).resume else s

end Sys2Proof.Machine
end

