-- ==== Sys2Proof/Machine/Arithmetic.lean ====
section
/-! DEFINITION. ADD, SUB, MUL, DIV (41_arithmetic.md). -/

namespace Sys2Proof.Machine

/-- ADD rs1, rs2, rd (R120). -/
def execAdd (rs1 rs2 rd : Byte) (s : State) : Host.Outcome State Fault Refusal :=
  .next (s.withRRR rs1 rs2 rd fun a b d => (s.setReg d (bits32 (sval a + sval b))).advance 4)

/-- SUB rs1, rs2, rd (R121). -/
def execSub (rs1 rs2 rd : Byte) (s : State) : Host.Outcome State Fault Refusal :=
  .next (s.withRRR rs1 rs2 rd fun a b d => (s.setReg d (bits32 (sval a - sval b))).advance 4)

/-- MUL rs1, rs2, rd (R122). -/
def execMul (rs1 rs2 rd : Byte) (s : State) : Host.Outcome State Fault Refusal :=
  .next (s.withRRR rs1 rs2 rd fun a b d => (s.setReg d (bits32 (sval a * sval b))).advance 4)

/-- The truncated quotient of R123, rounded toward zero. -/
def quotient (a d : Int) : Int := Int.tdiv a d

/-- The remainder of R123: `a - q * d`, with the sign of the dividend. -/
def remainder (a d : Int) : Int := a - quotient a d * d

/-- DIV's effect on two values: the two faults, or the quotient and the remainder (R123). -/
def State.divide (s : State) (a b : Word) (d : Fin 32) : State :=
  if sval b = 0 then s.raiseFault .divByZero 0#8
  else if sval a = -2 ^ 31 ∧ sval b = -1 then s.raiseFault .divOverflow 0#8
  else ((s.setReg d (bits32 (quotient (sval a) (sval b)))).setRem
    (bits32 (remainder (sval a) (sval b)))).advance 4

/-- DIV rs1, rs2, rd (R123). -/
def execDiv (rs1 rs2 rd : Byte) (s : State) : Host.Outcome State Fault Refusal :=
  .next (s.withRRR rs1 rs2 rd fun a b d => s.divide a b d)

end Sys2Proof.Machine
end

