-- ==== Sys2Proof/Machine/Branch.lean ====
section
/-! DEFINITION. JEQ, JNEQ (45_branch.md). The filler field has no effect and is no argument (R79, R190). -/

namespace Sys2Proof.Machine

/-- A conditional jump: the index is checked on both paths (R191); taken, it goes to `sval(x[r])` (R151); not taken, it
passes 4 bytes (R190). -/
def State.branch (s : State) (r : Byte) (taken : Bool) : State :=
  s.withReg r fun i => if taken then s.jumpTo (sval (s.reg i)) else s.advance 4

/-- JEQ r: taken when `eq` is true (R192). -/
def execJeq (r : Byte) (s : State) : Host.Outcome State Fault Refusal :=
  .next (s.branch r s.eq)

/-- JNEQ r: taken when `eq` is false (R193). -/
def execJneq (r : Byte) (s : State) : Host.Outcome State Fault Refusal :=
  .next (s.branch r (!s.eq))

end Sys2Proof.Machine
end

