-- ==== Sys2Proof/Machine/Flags.lean ====
section
/-! DEFINITION. What the six comparisons compute into the equal flag: relations of the signed values (44_compare.md R170). There
is no other flag (10_state.md R30). -/

namespace Sys2Proof.Machine

/-- EQ's relation (R172). -/
def relEq (a b : Word) : Bool := decide (sval a = sval b)

/-- NEQ's relation (R173). -/
def relNeq (a b : Word) : Bool := decide (sval a ≠ sval b)

/-- GT's relation (R174). -/
def relGt (a b : Word) : Bool := decide (sval a > sval b)

/-- LT's relation (R175). -/
def relLt (a b : Word) : Bool := decide (sval a < sval b)

/-- GTQ's relation (R176). -/
def relGtq (a b : Word) : Bool := decide (sval a ≥ sval b)

/-- LTQ's relation (R177). -/
def relLtq (a b : Word) : Bool := decide (sval a ≤ sval b)

end Sys2Proof.Machine
end

