-- ==== Sys2Proof/Machine/Compare.lean ====
section
/-! DEFINITION. EQ, NEQ, GT, LT, GTQ, LTQ (44_compare.md). The filler byte has no effect and is no argument (R79, R171). -/

namespace Sys2Proof.Machine

/-- EQ rs1, rs2 (R172). -/
def execEq (rs1 rs2 : Byte) (s : State) : Host.Outcome State Fault Refusal :=
  .next (s.compare rs1 rs2 relEq)

/-- NEQ rs1, rs2 (R173). -/
def execNeq (rs1 rs2 : Byte) (s : State) : Host.Outcome State Fault Refusal :=
  .next (s.compare rs1 rs2 relNeq)

/-- GT rs1, rs2 (R174). -/
def execGt (rs1 rs2 : Byte) (s : State) : Host.Outcome State Fault Refusal :=
  .next (s.compare rs1 rs2 relGt)

/-- LT rs1, rs2 (R175). -/
def execLt (rs1 rs2 : Byte) (s : State) : Host.Outcome State Fault Refusal :=
  .next (s.compare rs1 rs2 relLt)

/-- GTQ rs1, rs2 (R176). -/
def execGtq (rs1 rs2 : Byte) (s : State) : Host.Outcome State Fault Refusal :=
  .next (s.compare rs1 rs2 relGtq)

/-- LTQ rs1, rs2 (R177). -/
def execLtq (rs1 rs2 : Byte) (s : State) : Host.Outcome State Fault Refusal :=
  .next (s.compare rs1 rs2 relLtq)

end Sys2Proof.Machine
end

