-- ==== Sys2Proof/Machine/Halt.lean ====
section
/-! DEFINITION. HLT (42_halt.md). -/

namespace Sys2Proof.Machine

/-- HLT: `pc <- a0 + 1`, STATUS <- (HALT, 0) (R140). -/
def execHlt (s : State) : Host.Outcome State Fault Refusal :=
  .next ((s.advance 1).haltWith .halt)

end Sys2Proof.Machine
end

