-- ==== Sys2Proof/Machine/Jump.lean ====
section
/-! DEFINITION. JMP, JMPF, JMPB (43_jump.md). -/

namespace Sys2Proof.Machine

/-- `next = a0 + 2` of R150, the base of the relative jumps. -/
def State.nextAddress (s : State) : Int := (s.pc : Int) + 2

/-- JMP r: the absolute target `sval(x[r])` (R153). -/
def execJmp (r : Byte) (s : State) : Host.Outcome State Fault Refusal :=
  .next (s.withReg r fun i => s.jumpTo (sval (s.reg i)))

/-- JMPF r: `(a0 + 2) + sval(x[r])` (R154). -/
def execJmpf (r : Byte) (s : State) : Host.Outcome State Fault Refusal :=
  .next (s.withReg r fun i => s.jumpTo (s.nextAddress + sval (s.reg i)))

/-- JMPB r: `(a0 + 2) - sval(x[r])` (R155). -/
def execJmpb (r : Byte) (s : State) : Host.Outcome State Fault Refusal :=
  .next (s.withReg r fun i => s.jumpTo (s.nextAddress - sval (s.reg i)))

end Sys2Proof.Machine
end

