-- ==== Sys2Proof/Machine/Load.lean ====
section
/-! DEFINITION. LOAD (40_load.md). -/

namespace Sys2Proof.Machine

/-- LOAD r, imm: `x[r] <- zext_32(imm)` (R110). -/
def execLoad (r : Byte) (imm : Half) (s : State) : Host.Outcome State Fault Refusal :=
  .next (s.withReg r fun i => (s.setReg i (zext32 imm)).advance 4)

end Sys2Proof.Machine
end

