-- ==== Sys2Proof/Syntax.lean ====
section
/-! DEFINITION. The instructions, one constructor per row of spec/opcode_table.json, operands in the order of the
encoding (R72, R73).

A register operand is the RAW index byte (R22): an index of 32 or more is a value the byte can take, the opcode still
decodes (R77), and executing it raises BAD_REGISTER (R84). DESIGN CHOICE (log 5), safe: the byte the encoding holds is
the byte the term holds. -/

namespace Sys2Proof

/-- An instruction as decoded. -/
inductive Instr where
  /-- LOAD r, imm (R110). -/
  | load (r : Byte) (imm : Half)
  /-- ADD rs1, rs2, rd (R120). -/
  | add (rs1 rs2 rd : Byte)
  /-- SUB rs1, rs2, rd (R121). -/
  | sub (rs1 rs2 rd : Byte)
  /-- MUL rs1, rs2, rd (R122). -/
  | mul (rs1 rs2 rd : Byte)
  /-- DIV rs1, rs2, rd (R123). -/
  | div (rs1 rs2 rd : Byte)
  /-- HLT (R140). -/
  | hlt
  /-- JMP r (R153). -/
  | jmp (r : Byte)
  /-- JMPF r (R154). -/
  | jmpf (r : Byte)
  /-- JMPB r (R155). -/
  | jmpb (r : Byte)
  /-- EQ rs1, rs2 and its filler byte (R172). -/
  | eq (rs1 rs2 filler : Byte)
  /-- NEQ rs1, rs2 and its filler byte (R173). -/
  | neq (rs1 rs2 filler : Byte)
  /-- GT rs1, rs2 and its filler byte (R174). -/
  | gt (rs1 rs2 filler : Byte)
  /-- LT rs1, rs2 and its filler byte (R175). -/
  | lt (rs1 rs2 filler : Byte)
  /-- GTQ rs1, rs2 and its filler byte (R176). -/
  | gtq (rs1 rs2 filler : Byte)
  /-- LTQ rs1, rs2 and its filler byte (R177). -/
  | ltq (rs1 rs2 filler : Byte)
  /-- JEQ r: `none` is the taken form of 2 bytes, `some f` the not-taken form of 4 bytes with its filler field
  (R190, R192; 30_encoding.md R80). -/
  | jeq (r : Byte) (filler : Option Half)
  /-- JNEQ r: the two forms as for JEQ (R190, R193). -/
  | jneq (r : Byte) (filler : Option Half)
deriving DecidableEq, Repr

end Sys2Proof
end

