-- ==== Sys2Proof/Machine/Dispatch.lean ====
section
/-! DEFINITION. Each instruction's meaning, one arm per constructor. `pc` is the instruction's start address a0 (R25). -/

namespace Sys2Proof.Machine

def exec (i : Instr) (s : State) : Host.Outcome State Fault Refusal :=
  match i with
  | .load r imm => Sys2Proof.Machine.execLoad r imm s
  | .add rs1 rs2 rd => Sys2Proof.Machine.execAdd rs1 rs2 rd s
  | .sub rs1 rs2 rd => Sys2Proof.Machine.execSub rs1 rs2 rd s
  | .mul rs1 rs2 rd => Sys2Proof.Machine.execMul rs1 rs2 rd s
  | .div rs1 rs2 rd => Sys2Proof.Machine.execDiv rs1 rs2 rd s
  | .hlt => Sys2Proof.Machine.execHlt s
  | .jmp r => Sys2Proof.Machine.execJmp r s
  | .jmpf r => Sys2Proof.Machine.execJmpf r s
  | .jmpb r => Sys2Proof.Machine.execJmpb r s
  | .eq rs1 rs2 _ => Sys2Proof.Machine.execEq rs1 rs2 s
  | .neq rs1 rs2 _ => Sys2Proof.Machine.execNeq rs1 rs2 s
  | .gt rs1 rs2 _ => Sys2Proof.Machine.execGt rs1 rs2 s
  | .lt rs1 rs2 _ => Sys2Proof.Machine.execLt rs1 rs2 s
  | .gtq rs1 rs2 _ => Sys2Proof.Machine.execGtq rs1 rs2 s
  | .ltq rs1 rs2 _ => Sys2Proof.Machine.execLtq rs1 rs2 s
  | .jeq r _ => Sys2Proof.Machine.execJeq r s
  | .jneq r _ => Sys2Proof.Machine.execJneq r s

end Sys2Proof.Machine
end

