-- ==== Sys2Proof/WellFormed.lean ====
section
/-! DEFINITION. Which instructions are well-formed: every register-index byte names a register (R22, R75). Filler bytes are
not register indices and are never checked (R75, R79). -/

namespace Sys2Proof

/-- The register-index bytes of an instruction, in encoding order (R75): byte 1 of formats R, RI and RC, bytes 1 to 3 of
RRR, bytes 1 and 2 of RRX. -/
def Instr.regBytes : Instr → List Byte
  | .load r _ => [r]
  | .add rs1 rs2 rd => [rs1, rs2, rd]
  | .sub rs1 rs2 rd => [rs1, rs2, rd]
  | .mul rs1 rs2 rd => [rs1, rs2, rd]
  | .div rs1 rs2 rd => [rs1, rs2, rd]
  | .hlt => []
  | .jmp r => [r]
  | .jmpf r => [r]
  | .jmpb r => [r]
  | .eq rs1 rs2 _ => [rs1, rs2]
  | .neq rs1 rs2 _ => [rs1, rs2]
  | .gt rs1 rs2 _ => [rs1, rs2]
  | .lt rs1 rs2 _ => [rs1, rs2]
  | .gtq rs1 rs2 _ => [rs1, rs2]
  | .ltq rs1 rs2 _ => [rs1, rs2]
  | .jeq r _ => [r]
  | .jneq r _ => [r]

/-- A byte that names a register: 0 to 31 (R22). -/
def namesRegister (b : Byte) : Bool := decide (b.toNat < 32)

/-- The first register-index byte of 32 or more, in encoding order (R84). -/
def Instr.firstBadReg (i : Instr) : Option Byte := i.regBytes.find? (fun b => !namesRegister b)

/-- Every register-index byte names a register. -/
def Instr.wellFormed (i : Instr) : Bool := i.regBytes.all namesRegister

/-- The form of a conditional jump is the one the flag selects (R78, R190): JEQ has its filler exactly when `eq` is
false, JNEQ exactly when `eq` is true. Every other instruction has one form. -/
def Instr.fitsFlag (i : Instr) (eq : Bool) : Bool :=
  match i with
  | .jeq _ f => f.isNone == eq
  | .jneq _ f => f.isSome == eq
  | .load _ _ => true
  | .add _ _ _ => true
  | .sub _ _ _ => true
  | .mul _ _ _ => true
  | .div _ _ _ => true
  | .hlt => true
  | .jmp _ => true
  | .jmpf _ => true
  | .jmpb _ => true
  | .eq _ _ _ => true
  | .neq _ _ _ => true
  | .gt _ _ _ => true
  | .lt _ _ _ => true
  | .gtq _ _ _ => true
  | .ltq _ _ _ => true

end Sys2Proof
end

