-- ==== Sys2Proof/Decode.lean ====
section
/-! DEFINITION. Decoding bytes into an instruction (30_encoding.md R70 to R84), total on any bytes and any OPCODE_MAP, and after
it the encoder, written from the same tables. -/

namespace Sys2Proof

/-! ## Byte order -/

/-- Two consecutive bytes as the 16-bit field, big-endian: the byte at the lower address is the high byte (R54). -/
def half (hi lo : Byte) : Half := hi ++ lo

/-- Bits 15:8 of the 16-bit field, its first byte (R54). -/
def hiByte (h : Half) : Byte := h.extractLsb' 8 8

/-- Bits 7:0 of the 16-bit field, its second byte (R54). -/
def loByte (h : Half) : Byte := h.extractLsb' 0 8

/-! ## Decoding -/

/-- The mnemonic of an instruction. -/
def Instr.op : Instr → Op
  | .load _ _ => .load
  | .add _ _ _ => .add
  | .sub _ _ _ => .sub
  | .mul _ _ _ => .mul
  | .div _ _ _ => .div
  | .hlt => .hlt
  | .jmp _ => .jmp
  | .jmpf _ => .jmpf
  | .jmpb _ => .jmpb
  | .eq _ _ _ => .eq
  | .neq _ _ _ => .neq
  | .gt _ _ _ => .gt
  | .lt _ _ _ => .lt
  | .gtq _ _ _ => .gtq
  | .ltq _ _ _ => .ltq
  | .jeq _ _ => .jeq
  | .jneq _ _ => .jneq

/-- The length function of R78. -/
def Op.length (op : Op) (eq : Bool) : Nat :=
  match op with
  | .hlt => 1
  | .jmp | .jmpf | .jmpb => 2
  | .load | .add | .sub | .mul | .div => 4
  | .eq | .neq | .gt | .lt | .gtq | .ltq => 4
  | .jeq => if eq then 2 else 4
  | .jneq => if eq then 4 else 2

/-- The decode function of R77: the mnemonic of an opcode byte, `none` for ILLEGAL. -/
def decodeOp (m : OpcodeMap) (b : Byte) : Option Op := Op.all.find? (fun op => m.byteOf op == b)

/-- What the decoder answers. -/
inductive Decoded where
  /-- An instruction, and the bytes after it. -/
  | instr (i : Instr) (rest : List Byte)
  /-- The opcode byte is not in OPCODE_MAP (R82). -/
  | illegal (b : Byte)
  /-- The bytes end before the instruction does (R83). -/
  | truncated
  /-- There is no opcode byte (R92). -/
  | noByte
deriving DecidableEq, Repr

/-- An instruction of one operand byte. -/
def take1 (bs : List Byte) (k : Byte → Instr) : Decoded :=
  match bs with
  | a :: rest => .instr (k a) rest
  | [] => .truncated

/-- An instruction of three operand bytes. -/
def take3 (bs : List Byte) (k : Byte → Byte → Byte → Instr) : Decoded :=
  match bs with
  | a :: b :: c :: rest => .instr (k a b c) rest
  | _ => .truncated

/-- The operands that follow an opcode byte, in the formats of R72 and the operand order of R73. For JEQ and JNEQ the flag
selects the form (R78, R190). -/
def decodeOperands (op : Op) (eq : Bool) (bs : List Byte) : Decoded :=
  match op with
  | .load => take3 bs fun r hi lo => .load r (half hi lo)
  | .add => take3 bs fun rs1 rs2 rd => .add rs1 rs2 rd
  | .sub => take3 bs fun rs1 rs2 rd => .sub rs1 rs2 rd
  | .mul => take3 bs fun rs1 rs2 rd => .mul rs1 rs2 rd
  | .div => take3 bs fun rs1 rs2 rd => .div rs1 rs2 rd
  | .hlt => .instr .hlt bs
  | .jmp => take1 bs fun r => .jmp r
  | .jmpf => take1 bs fun r => .jmpf r
  | .jmpb => take1 bs fun r => .jmpb r
  | .eq => take3 bs fun rs1 rs2 f => .eq rs1 rs2 f
  | .neq => take3 bs fun rs1 rs2 f => .neq rs1 rs2 f
  | .gt => take3 bs fun rs1 rs2 f => .gt rs1 rs2 f
  | .lt => take3 bs fun rs1 rs2 f => .lt rs1 rs2 f
  | .gtq => take3 bs fun rs1 rs2 f => .gtq rs1 rs2 f
  | .ltq => take3 bs fun rs1 rs2 f => .ltq rs1 rs2 f
  | .jeq => if eq then take1 bs fun r => .jeq r none else take3 bs fun r hi lo => .jeq r (some (half hi lo))
  | .jneq => if eq then take3 bs fun r hi lo => .jneq r (some (half hi lo)) else take1 bs fun r => .jneq r none

/-- Decode the instruction at the head of `bs`, with the equal flag as before the step (R77, R78, R90). -/
def decode (m : OpcodeMap) (eq : Bool) (bs : List Byte) : Decoded :=
  match bs with
  | [] => .noByte
  | b :: rest =>
    match decodeOp m b with
    | none => .illegal b
    | some op => decodeOperands op eq rest

/-! ## Encoding -/

/-- The bytes after the opcode byte (R72). -/
def operandBytes : Instr → List Byte
  | .load r imm => [r, hiByte imm, loByte imm]
  | .add rs1 rs2 rd => [rs1, rs2, rd]
  | .sub rs1 rs2 rd => [rs1, rs2, rd]
  | .mul rs1 rs2 rd => [rs1, rs2, rd]
  | .div rs1 rs2 rd => [rs1, rs2, rd]
  | .hlt => []
  | .jmp r => [r]
  | .jmpf r => [r]
  | .jmpb r => [r]
  | .eq rs1 rs2 f => [rs1, rs2, f]
  | .neq rs1 rs2 f => [rs1, rs2, f]
  | .gt rs1 rs2 f => [rs1, rs2, f]
  | .lt rs1 rs2 f => [rs1, rs2, f]
  | .gtq rs1 rs2 f => [rs1, rs2, f]
  | .ltq rs1 rs2 f => [rs1, rs2, f]
  | .jeq r none => [r]
  | .jeq r (some f) => [r, hiByte f, loByte f]
  | .jneq r none => [r]
  | .jneq r (some f) => [r, hiByte f, loByte f]

/-- The bytes of an instruction, in address order (R70, R72). -/
def encode (m : OpcodeMap) (i : Instr) : List Byte := m.byteOf i.op :: operandBytes i

/-! ## The host's numbering of an instruction's bits -/

/-- Bits 8k+7 .. 8k of `w` as a byte. -/
def byteOfNat (w k : Nat) : Byte := BitVec.ofNat 8 (w / 2 ^ (8 * k))

/-- The four bytes (the longest instruction, R78) that the low `nbits` bits of `w` stand for, every bit above them zero:
bit 0 of `w` is bit 0 of the first byte, bits 15:8 are the second byte. -/
def wordBytes (nbits w : Nat) : List Byte :=
  let v := w % 2 ^ nbits
  [byteOfNat v 0, byteOfNat v 1, byteOfNat v 2, byteOfNat v 3]

/-- The instruction the decoder reads from those bytes, under the default OPCODE_MAP and with the equal flag false, as
reset leaves it (R240; log 6). -/
def decodeTableWord (nbits w : Nat) : Option Instr :=
  match decode Config.opcodeMap false (wordBytes nbits w) with
  | .instr i _ => some i
  | _ => none

end Sys2Proof
end

