-- ==== Sys2Proof/Machine/Fetch.lean ====
section
/-! DEFINITION. Fetching and decoding at `pc`: the part of the step algorithm of R90 before an instruction executes, with the
checks in the order of R214. -/

namespace Sys2Proof.Machine

/-- What a step finds at `pc`. -/
inductive Fetched where
  /-- The step ends here with this state: already halted, END, ILLEGAL_OPCODE or TRUNCATED. -/
  | stopped (t : State)
  /-- An instruction to execute. -/
  | run (i : Instr)
deriving DecidableEq, Repr

/-- How many bytes the fetch hands the decoder: the longest instruction (4, R78), or what is left of the program from `pc`
on, so that no address at or beyond L is read (R53). DESIGN CHOICE (log 4), safe: reading has no side effect (R56),
so handing the decoder bytes that a shorter instruction does not consume is not observable. -/
def State.windowSize (s : State) : Nat := min 4 (s.prog.len - s.pc)

/-- The bytes at `pc`, in address order (R70). -/
def State.window (s : State) : Except Fault (List Byte) := s.prog.readBytes s.pc s.windowSize

/-- What a decoded window means for the step: no byte is END with `pc` unchanged (R92), an unassigned opcode is
ILLEGAL_OPCODE (R82), missing bytes are TRUNCATED (R83), an instruction is run. -/
def State.afterDecode (s : State) (d : Decoded) : Fetched :=
  match d with
  | .noByte => .stopped (s.haltWith .endOfProgram)
  | .illegal b => .stopped (s.illegalOpcode b)
  | .truncated => .stopped (s.raiseFault .truncated 0#8)
  | .instr i _ => .run i

/-- The step up to execution (R90): a halted core changes nothing (R91); otherwise fetch and decode at `pc`, with `eq` as
before the step. -/
def State.fetch (m : OpcodeMap) (s : State) : Except Fault Fetched :=
  if s.halted then .ok (.stopped s)
  else
    match s.window with
    | .error f => .error f
    | .ok bs => .ok (s.afterDecode (decode m s.eq bs))

/-- The bytes of one instruction put where the next step fetches, with the core running. -/
def State.placeAtPc (s : State) (bs : List Byte) : State := (s.setProg (s.prog.place s.pc bs)).resume

end Sys2Proof.Machine
end

