-- ==== Sys2Proof/Machine/Step.lean ====
section
/-! DEFINITION. One step of the core (R90), under any OPCODE_MAP and under the default one. -/

namespace Sys2Proof.Machine

/-- `step()` of R90 under an OPCODE_MAP. -/
def stepWith (m : OpcodeMap) (s : State) : Host.Outcome State Fault Refusal :=
  match s.fetch m with
  | .error f => .fault f
  | .ok (.stopped t) => .next t
  | .ok (.run i) => exec i s

/-- `step()` of R90 under the default OPCODE_MAP (R76). -/
def step (s : State) : Host.Outcome State Fault Refusal := stepWith Config.opcodeMap s

/-- `s` with the instruction whose bits are `w` stored where the next step fetches, and the core running, as after a load
from outside (log 6). -/
def State.withFetchWord (s : State) (nbits w : Nat) : State := s.placeAtPc (wordBytes nbits w)

end Sys2Proof.Machine
end

