-- ==== Sys2Proof/Machine/HostOps.lean ====
section
/-! DEFINITION. What the host does between steps: `new`, `load`, `step`, `run` and `poke` (70_reset_and_hazards.md R240 to
R246). -/

namespace Sys2Proof.Machine

/-- `step()` as the host sees it (R244): the state after it, and true when the core is halted after it. -/
def hostStep (s : State) : Host.Outcome (State × Bool) Fault Refusal :=
  match step s with
  | .next t => .next (t, t.halted)
  | .fault f => .fault f
  | .refused r => .refused r

/-- `run()` (R245): `step` until it returns true. DESIGN CHOICE (log 9), safe: a run need not end (U19), so the model runs
under fuel; `none` says that `fuel` steps did not return true. -/
def hostRun (fuel : Nat) (s : State) : Option State :=
  match fuel with
  | 0 => none
  | k + 1 =>
    match hostStep s with
    | .next (t, true) => some t
    | .next (t, false) => hostRun k t
    | .fault _ => none
    | .refused _ => none

/-- The operations the host may issue between steps (R240 to R246). -/
inductive HostOp where
  /-- `new` (R240). -/
  | new
  /-- `load` of a program (R242). -/
  | load (program : List Byte)
  /-- `step` (R244). -/
  | step
  /-- `poke` of a general register (R246). -/
  | pokeReg (i : Fin 32) (v : Word)
  /-- `poke` of `pc`, any value from 0 to 2^33 - 1 (R246). -/
  | pokePc (v : BitVec Config.pcWidth)
  /-- `poke` of `rem` (R246). -/
  | pokeRem (v : Word)
  /-- `poke` of `eq` (R246). -/
  | pokeEq (b : Bool)
deriving DecidableEq, Repr

/-- The effect of one host operation. A `poke` changes the one thing it names and never STATUS or the program (R246). -/
def hostApply (op : HostOp) (s : State) : Host.Outcome State Fault Refusal :=
  match op with
  | .new => .next State.reset
  | .load bs => .next (s.load bs)
  | .step => step s
  | .pokeReg i v => .next (s.setReg i v)
  | .pokePc v => .next (s.setPc v.toNat)
  | .pokeRem v => .next (s.setRem v)
  | .pokeEq b => .next (s.setEq b)

/-- Host operations one after the other, in the order issued (R59). -/
def hostApplyAll (ops : List HostOp) (s : State) : Host.Outcome State Fault Refusal :=
  match ops with
  | [] => .next s
  | op :: rest =>
    match hostApply op s with
    | .next t => hostApplyAll rest t
    | .fault f => .fault f
    | .refused r => .refused r

end Sys2Proof.Machine
end

