-- ==== Sys2Proof/Safety.lean ====
section
/-! DEFINITION. What claims call a good state and a clean stop. -/

namespace Sys2Proof.Machine

/-- INFO agrees with CAUSE (R32): the opcode byte, which is not in the default OPCODE_MAP, for ILLEGAL_OPCODE; an index byte of 32 or
more for BAD_REGISTER; 0 for every other cause. -/
def Status.legal (st : Status) : Bool :=
  match st.cause with
  | .illegalOpcode => (decodeOp Config.opcodeMap st.info).isNone
  | .badRegister => decide (32 ≤ st.info.toNat)
  | .running => decide (st.info = 0#8)
  | .halt => decide (st.info = 0#8)
  | .endOfProgram => decide (st.info = 0#8)
  | .truncated => decide (st.info = 0#8)
  | .divByZero => decide (st.info = 0#8)
  | .divOverflow => decide (st.info = 0#8)
  | .jumpUnderflow => decide (st.info = 0#8)

/-- What holds of every state the machine can be in: the program store is in its canonical form (log 2) and at most
MAX_PROG_LEN long (R5), `pc` fits PC_WIDTH bits (R27), and INFO agrees with CAUSE (R32). -/
abbrev State.Inv (s : State) : Prop :=
  s.prog.wf = true ∧ s.prog.len ≤ Config.maxProgLen ∧ s.pc < 2 ^ Config.pcWidth ∧ s.status.legal = true

/-- The program holds instruction `i` at `pc`, in the form the flag selects (R70, R78): the bytes from `pc` on, all of them
below L, are the bytes of `i`. -/
abbrev State.HoldsAtPc (m : OpcodeMap) (s : State) (i : Instr) : Prop :=
  i.fitsFlag s.eq = true ∧ s.prog.readBytes s.pc (encode m i).length = .ok (encode m i)

/-- A state some sequence of host operations reaches from reset. -/
def State.Reachable (s : State) : Prop := ∃ ops : List HostOp, hostApplyAll ops State.reset = .next s

/-- The classification of R247: the run that ends in `s` ended cleanly. -/
def State.endedCleanly (s : State) : Bool := s.halted && !s.status.cause.isFault

/-- The classification of R247: the run that ends in `s` ended in a fault. -/
def State.faulted (s : State) : Bool := s.status.cause.isFault

end Sys2Proof.Machine
end

