-- ==== Sys2Proof/Certificates/Slice0/Obligations.lean ====
section
/-! DEFINITION. The statements for the provers. "D<n>" is a row of spec/92_eei_decisions.md (a decision the spec marks as its own),
"log <n>" a row of notes/assumptions. -/

open Sys2Proof Sys2Proof.Machine

/-! ## Encoding -/

/-- Byte strings written out from the encoding tables of R72 and the default opcode bytes of R76 (D2) decode to the
instruction they stand for, and the three rejections are told apart (R82, R83, R92). -/
def Obligations.DecodesBytesAsWritten : Prop :=
  decode Config.opcodeMap false [0x00#8, 0x00#8, 0x01#8, 0xF4#8] = .instr (.load 0 500) [] ∧
  decode Config.opcodeMap false [0x01#8, 0x00#8, 0x01#8, 0x02#8, 0x05#8] = .instr (.add 0 1 2) [0x05#8] ∧
  decode Config.opcodeMap false [0x04#8, 0x00#8, 0x01#8, 0x02#8] = .instr (.div 0 1 2) [] ∧
  decode Config.opcodeMap false [0x05#8] = .instr .hlt [] ∧
  decode Config.opcodeMap false [0x07#8, 0x06#8] = .instr (.jmpf 6) [] ∧
  decode Config.opcodeMap false [0x09#8, 0x00#8, 0x01#8, 0x77#8] = .instr (.eq 0 1 0x77) [] ∧
  decode Config.opcodeMap false [0x0F#8, 0x02#8, 0xAA#8, 0xBB#8] = .instr (.jeq 2 (some 0xAABB)) [] ∧
  decode Config.opcodeMap true [0x0F#8, 0x02#8, 0xAA#8, 0xBB#8] = .instr (.jeq 2 none) [0xAA#8, 0xBB#8] ∧
  decode Config.opcodeMap true [0x10#8, 0x02#8, 0xAA#8, 0xBB#8] = .instr (.jneq 2 (some 0xAABB)) [] ∧
  decode Config.opcodeMap false [0x10#8, 0x02#8] = .instr (.jneq 2 none) [] ∧
  decode Config.opcodeMap false [0x11#8, 0x20#8] = .illegal 0x11 ∧
  decode Config.opcodeMap false [0x00#8, 0x00#8, 0x01#8] = .truncated ∧
  decode Config.opcodeMap false [] = .noByte

/-- Under every OPCODE_MAP and for every instruction, with every operand byte and filler, in the form the flag selects:
decoding its bytes gives it back, with the bytes after it untouched (R70 to R80). -/
def Obligations.DecodeOfEncodeIsIdentity : Prop :=
  ∀ (m : OpcodeMap) (eq : Bool) (i : Instr) (rest : List Byte),
    i.fitsFlag eq = true → decode m eq (encode m i ++ rest) = .instr i rest

/-- The other direction: whatever decodes to an instruction is that instruction's bytes followed by the rest, and the
instruction is in the form the flag selects (R70 to R80). So no two byte strings share a decoding by accident. -/
def Obligations.EncodeOfDecodeIsIdentity : Prop :=
  ∀ (m : OpcodeMap) (eq : Bool) (bs : List Byte) (i : Instr) (rest : List Byte),
    decode m eq bs = .instr i rest → i.fitsFlag eq = true ∧ bs = encode m i ++ rest

/-- R77: the decode function is total, one-to-one between the 17 bytes of OPCODE_MAP and the 17 mnemonics, every other byte is
ILLEGAL, and only the opcode byte selects the instruction. -/
def Obligations.OpcodeByteSelectsInstruction : Prop :=
  ∀ (m : OpcodeMap) (b : Byte),
    (∀ op, decodeOp m b = some op ↔ m.byteOf op = b) ∧
    (decodeOp m b = none ↔ ∀ op, m.byteOf op ≠ b) ∧
    (∀ (eq : Bool) (operands : List Byte),
      (decode m eq (b :: operands) = .illegal b ↔ decodeOp m b = none) ∧
      (∀ i rest, decode m eq (b :: operands) = .instr i rest → decodeOp m b = some i.op))

/-- The default OPCODE_MAP: bytes 0x00 to 0x10 are the mnemonics in the order of the table of R76, every byte from 0x11 on is
illegal (R81). The byte values are the spec's own decision D2 (log 1). -/
def Obligations.DefaultOpcodeTable : Prop :=
  ∀ b : Byte, decodeOp Config.opcodeMap b =
    [Op.load, Op.add, Op.sub, Op.mul, Op.div, Op.hlt, Op.jmp, Op.jmpf, Op.jmpb,
      Op.eq, Op.neq, Op.gt, Op.lt, Op.gtq, Op.ltq, Op.jeq, Op.jneq][b.toNat]?

/-- R78: the number of bytes each instruction consumes, the flag deciding for JEQ and JNEQ; an illegal opcode consumes one byte
(`pc` passes it). -/
def Obligations.InstructionLengths : Prop :=
  (∀ (m : OpcodeMap) (eq : Bool) (bs : List Byte) (i : Instr) (rest : List Byte),
    decode m eq bs = .instr i rest →
      bs.length = rest.length +
        match i.op with
        | .hlt => 1
        | .jmp => 2 | .jmpf => 2 | .jmpb => 2
        | .load => 4 | .add => 4 | .sub => 4 | .mul => 4 | .div => 4
        | .eq => 4 | .neq => 4 | .gt => 4 | .lt => 4 | .gtq => 4 | .ltq => 4
        | .jeq => if eq = true then 2 else 4
        | .jneq => if eq = true then 4 else 2) ∧
  (∀ (m : OpcodeMap) (s : State) (b : Byte),
    s.status.cause = .running → s.prog.read s.pc = .ok b → decodeOp m b = none →
      ∃ t, stepWith m s = .next t ∧ t.pc = s.pc + 1)

/-! ## The step -/

/-- A step of a running core whose bytes at `pc` decode to an instruction is exactly that instruction's meaning (R90). -/
def Obligations.StepRunsDecodedInstruction : Prop :=
  ∀ (s : State) (bs : List Byte) (i : Instr) (rest : List Byte),
    s.status.cause = .running → s.window = .ok bs → decode Config.opcodeMap s.eq bs = .instr i rest →
      step s = exec i s

/-- The same from the program itself and under every OPCODE_MAP: if the bytes from `pc` on, all below L, are the bytes of an
instruction in the form the flag selects, a step of a running core is that instruction's meaning (R76, R90). -/
def Obligations.StepRunsInstructionInProgram : Prop :=
  (∀ (m : OpcodeMap) (s : State) (i : Instr),
    s.status.cause = .running → s.HoldsAtPc m i → stepWith m s = exec i s) ∧
  (∀ s : State, step s = stepWith Config.opcodeMap s)

/-- Every step of every state answers a next state: no Lean fault (no read at or beyond L, as 20_memory.md says of MemRead;
log 3) and no refusal, under every OPCODE_MAP. -/
def Obligations.StepAlwaysAnswersNext : Prop :=
  ∀ (m : OpcodeMap) (s : State), ∃ t, stepWith m s = .next t

/-- R244: `step` returns true exactly when the core is halted after it. -/
def Obligations.StepReturnsHalted : Prop :=
  ∀ (s : State), (∃ t, hostStep s = .next (t, decide (t.status.cause ≠ .running)) ∧ step s = .next t)

/-- A step of a halted core changes nothing, STATUS included, and returns true (R91; that STATUS is included is the spec's
decision D14). -/
def Obligations.HaltedStepChangesNothing : Prop :=
  ∀ s : State, s.status.cause ≠ .running → step s = .next s ∧ hostStep s = .next (s, true)

/-- A step that begins at or beyond the end of the program halts with END and changes nothing else; a step that ends running
returned false, and if it left `pc` at or beyond the end, the next step reports END (30_encoding.md section 7; the
second part is the spec's own inference there, STATUS its decision D14). -/
def Obligations.EndOfProgramStops : Prop :=
  (∀ s : State, s.status.cause = .running → s.prog.len ≤ s.pc →
    hostStep s = .next ({ s with status := ⟨.endOfProgram, 0#8⟩ }, true)) ∧
  (∀ s t : State, step s = .next t → t.status.cause = .running →
    hostStep s = .next (t, false) ∧
    (t.prog.len ≤ t.pc → hostStep t = .next ({ t with status := ⟨.endOfProgram, 0#8⟩ }, true)))

/-- R82: an unassigned opcode byte halts with ILLEGAL_OPCODE, INFO the byte, `pc` one past it, nothing else changed, and `run`
ends there. -/
def Obligations.IllegalOpcodeStops : Prop :=
  ∀ (s : State) (b : Byte), s.status.cause = .running → s.prog.read s.pc = .ok b →
    decodeOp Config.opcodeMap b = none →
      hostStep s = .next ({ s with pc := s.pc + 1, status := ⟨.illegalOpcode, b⟩ }, true) ∧
      ∀ k, hostRun (k + 1) s = some { s with pc := s.pc + 1, status := ⟨.illegalOpcode, b⟩ }

/-- A legal opcode whose instruction runs past the end of the program halts with TRUNCATED, `pc` at the opcode, whatever its
operand bytes (the spec's decisions D9, D15 and, for the length of the path taken, D18). -/
def Obligations.TruncatedInstructionStops : Prop :=
  ∀ (s : State) (b : Byte) (op : Op), s.status.cause = .running → s.prog.read s.pc = .ok b →
    decodeOp Config.opcodeMap b = some op → s.prog.len < s.pc + op.length s.eq →
      hostStep s = .next ({ s with status := ⟨.truncated, 0#8⟩ }, true)

/-- An instruction with a register-index byte of 32 or more halts with BAD_REGISTER, INFO the first such byte in encoding
order, and writes nothing else: as a meaning, and as a step of the program; JEQ and JNEQ on both paths (the
spec's decisions D8, D15, D19). -/
def Obligations.BadRegisterStops : Prop :=
  (∀ (i : Instr) (s : State) (b : Byte), i.firstBadReg = some b →
    exec i s = .next { s with status := ⟨.badRegister, b⟩ }) ∧
  (∀ (i : Instr) (s : State) (b : Byte), s.status.cause = .running → s.HoldsAtPc Config.opcodeMap i →
    i.firstBadReg = some b → hostStep s = .next ({ s with status := ⟨.badRegister, b⟩ }, true))

/-- Fault entry (60_exceptions.md section 1; what the state is after a fault is the spec's decision D13): a step of a running
core that ends in a fault wrote no register, `rem`, `eq` or program byte, left `pc` at the instruction (one past it for
ILLEGAL_OPCODE), and returns true. -/
def Obligations.FaultsArePrecise : Prop :=
  ∀ s t : State, s.status.cause = .running → step s = .next t → t.status.cause.isFault = true →
    t.x = s.x ∧ t.rem = s.rem ∧ t.eq = s.eq ∧ t.prog = s.prog ∧
    t.pc = (if t.status.cause = .illegalOpcode then s.pc + 1 else s.pc) ∧
    hostStep s = .next (t, true)

/-- Which cause a step of a running core ends with, and its INFO (60_exceptions.md sections 1, R210, R212 and the order of
R214; the codes, the conditions and the order are the spec's decisions D4, D5, D8, D9, D10, D14, D15; that a JEQ or JNEQ is
truncated by the length of the path taken is D18, that its index is checked on both paths D19). -/
def Obligations.StopCausesClassified : Prop :=
  ∀ s t : State, s.status.cause = .running → step s = .next t →
    (t.status.cause = .endOfProgram ↔ s.prog.len ≤ s.pc) ∧
    (t.status.cause = .illegalOpcode ↔ ∃ b, s.prog.read s.pc = .ok b ∧ decodeOp Config.opcodeMap b = none) ∧
    (t.status.cause = .illegalOpcode → s.prog.read s.pc = .ok t.status.info) ∧
    (t.status.cause = .truncated ↔ ∃ b op, s.prog.read s.pc = .ok b ∧ decodeOp Config.opcodeMap b = some op ∧
      s.prog.len < s.pc + op.length s.eq) ∧
    (t.status.cause = .badRegister ↔ ∃ i : Instr, s.HoldsAtPc Config.opcodeMap i ∧ i.wellFormed = false) ∧
    (t.status.cause = .badRegister →
      ∃ i : Instr, s.HoldsAtPc Config.opcodeMap i ∧ i.firstBadReg = some t.status.info) ∧
    (t.status.cause = .halt ↔ s.HoldsAtPc Config.opcodeMap .hlt) ∧
    (t.status.cause = .divByZero ↔ ∃ (rs1 rs2 rd : Byte) (_ : rs1.toNat < 32) (_ : rs2.toNat < 32) (_ : rd.toNat < 32),
      s.HoldsAtPc Config.opcodeMap (.div rs1 rs2 rd) ∧ s.x[rs2.toNat] = 0#32) ∧
    (t.status.cause = .divOverflow ↔
      ∃ (rs1 rs2 rd : Byte) (_ : rs1.toNat < 32) (_ : rs2.toNat < 32) (_ : rd.toNat < 32),
        s.HoldsAtPc Config.opcodeMap (.div rs1 rs2 rd) ∧
        s.x[rs1.toNat] = 0x80000000#32 ∧ s.x[rs2.toNat] = 0xFFFFFFFF#32) ∧
    (t.status.cause = .jumpUnderflow ↔ ∃ (r : Byte) (_ : r.toNat < 32),
      (s.HoldsAtPc Config.opcodeMap (.jmp r) ∧ s.x[r.toNat].toInt < 0) ∨
      (s.HoldsAtPc Config.opcodeMap (.jmpf r) ∧ (s.pc : Int) + 2 + s.x[r.toNat].toInt < 0) ∨
      (s.HoldsAtPc Config.opcodeMap (.jmpb r) ∧ (s.pc : Int) + 2 - s.x[r.toNat].toInt < 0) ∨
      (s.HoldsAtPc Config.opcodeMap (.jeq r none) ∧ s.x[r.toNat].toInt < 0) ∨
      (s.HoldsAtPc Config.opcodeMap (.jneq r none) ∧ s.x[r.toNat].toInt < 0)) ∧
    (t.status.cause ≠ .illegalOpcode → t.status.cause ≠ .badRegister → t.status.cause ≠ .running →
      t.status.info = 0#8)

/-! ## What each instruction does when it completes (`exec`, with `pc` the start address) -/

/-- LOAD completes for every register and immediate: `x[r]` is the zero-extended immediate, `pc` passes 4 bytes, nothing else
changes (40_load.md). -/
def Obligations.LoadResult : Prop :=
  ∀ (r : Byte) (imm : Half) (s : State) (_ : r.toNat < 32),
    exec (.load r imm) s = .next { s with x := s.x.set r.toNat (imm.zeroExtend 32), pc := s.pc + 4 }

/-- ADD, SUB and MUL complete for every register operand and value: `x[rd]` is the exact result modulo 2^32 (that overflow wraps
is the spec's decision D3), computed from the values before the write (D20), `pc` passes 4 bytes, nothing else changes. -/
def Obligations.AddSubMulResult : Prop :=
  ∀ (rs1 rs2 rd : Byte) (s : State) (_ : rs1.toNat < 32) (_ : rs2.toNat < 32) (_ : rd.toNat < 32),
    exec (.add rs1 rs2 rd) s = .next { s with
      x := s.x.set rd.toNat (BitVec.ofInt 32 (s.x[rs1.toNat].toInt + s.x[rs2.toNat].toInt)), pc := s.pc + 4 } ∧
    exec (.sub rs1 rs2 rd) s = .next { s with
      x := s.x.set rd.toNat (BitVec.ofInt 32 (s.x[rs1.toNat].toInt - s.x[rs2.toNat].toInt)), pc := s.pc + 4 } ∧
    exec (.mul rs1 rs2 rd) s = .next { s with
      x := s.x.set rd.toNat (BitVec.ofInt 32 (s.x[rs1.toNat].toInt * s.x[rs2.toNat].toInt)), pc := s.pc + 4 }

/-- DIV completes unless the divisor is 0 or the operands are INT_MIN and -1: `x[rd]` is the truncated quotient, `rem` the
pattern of the remainder (the spec's decision D6), both from the values before the writes (D20), `pc` passes 4
bytes, nothing else changes. -/
def Obligations.DivResult : Prop :=
  ∀ (rs1 rs2 rd : Byte) (s : State) (_ : rs1.toNat < 32) (_ : rs2.toNat < 32) (_ : rd.toNat < 32),
    s.x[rs2.toNat] ≠ 0#32 → ¬(s.x[rs1.toNat] = 0x80000000#32 ∧ s.x[rs2.toNat] = 0xFFFFFFFF#32) →
      exec (.div rs1 rs2 rd) s = .next { s with
        x := s.x.set rd.toNat (BitVec.ofInt 32 (Int.tdiv s.x[rs1.toNat].toInt s.x[rs2.toNat].toInt)),
        rem := BitVec.ofInt 32 (Int.tmod s.x[rs1.toNat].toInt s.x[rs2.toNat].toInt),
        pc := s.pc + 4 }

/-- DIV by 0 faults DIV_BY_ZERO and DIV of INT_MIN by -1 faults DIV_OVERFLOW, writing nothing but STATUS (the spec's decisions
D4, D5, D13). -/
def Obligations.DivFaults : Prop :=
  ∀ (rs1 rs2 rd : Byte) (s : State) (_ : rs1.toNat < 32) (_ : rs2.toNat < 32) (_ : rd.toNat < 32),
    (s.x[rs2.toNat] = 0#32 → exec (.div rs1 rs2 rd) s = .next { s with status := ⟨.divByZero, 0#8⟩ }) ∧
    (s.x[rs1.toNat] = 0x80000000#32 → s.x[rs2.toNat] = 0xFFFFFFFF#32 →
      exec (.div rs1 rs2 rd) s = .next { s with status := ⟨.divOverflow, 0#8⟩ })

/-- HLT completes in every state: `pc` passes its byte, STATUS is (HALT, 0), nothing else changes (42_halt.md). -/
def Obligations.HltResult : Prop :=
  ∀ s : State, exec .hlt s = .next { s with pc := s.pc + 1, status := ⟨.halt, 0#8⟩ }

/-- JMP, JMPF and JMPB with a target at or above 0 set `pc` to it, with no upper check, and change nothing else; the relative
base is the next instruction's address (43_jump.md; that absolute targets are checked too is the spec's decision
D10, that there is no upper check D11, that a negative offset is used as it is D12). -/
def Obligations.JumpResult : Prop :=
  ∀ (r : Byte) (s : State) (_ : r.toNat < 32) (target : Nat),
    ((target : Int) = s.x[r.toNat].toInt → exec (.jmp r) s = .next { s with pc := target }) ∧
    ((target : Int) = (s.pc : Int) + 2 + s.x[r.toNat].toInt → exec (.jmpf r) s = .next { s with pc := target }) ∧
    ((target : Int) = (s.pc : Int) + 2 - s.x[r.toNat].toInt → exec (.jmpb r) s = .next { s with pc := target })

/-- A jump whose target is below 0 faults JUMP_UNDERFLOW with `pc` at the jump, for all five jumps (the spec's decision
D10). -/
def Obligations.JumpUnderflowFaults : Prop :=
  ∀ (r : Byte) (s : State) (f : Option Half) (_ : r.toNat < 32),
    (s.x[r.toNat].toInt < 0 → exec (.jmp r) s = .next { s with status := ⟨.jumpUnderflow, 0#8⟩ }) ∧
    ((s.pc : Int) + 2 + s.x[r.toNat].toInt < 0 →
      exec (.jmpf r) s = .next { s with status := ⟨.jumpUnderflow, 0#8⟩ }) ∧
    ((s.pc : Int) + 2 - s.x[r.toNat].toInt < 0 →
      exec (.jmpb r) s = .next { s with status := ⟨.jumpUnderflow, 0#8⟩ }) ∧
    (s.eq = true → s.x[r.toNat].toInt < 0 →
      exec (.jeq r f) s = .next { s with status := ⟨.jumpUnderflow, 0#8⟩ }) ∧
    (s.eq = false → s.x[r.toNat].toInt < 0 →
      exec (.jneq r f) s = .next { s with status := ⟨.jumpUnderflow, 0#8⟩ })

/-- Each comparison completes for every register operand, value and filler: `eq` is the relation of the signed values (that the
relations are signed is the spec's decision D7), `pc` passes 4 bytes, nothing else changes (44_compare.md). -/
def Obligations.CompareResult : Prop :=
  ∀ (rs1 rs2 f : Byte) (s : State) (_ : rs1.toNat < 32) (_ : rs2.toNat < 32),
    exec (.eq rs1 rs2 f) s = .next { s with
      eq := decide (s.x[rs1.toNat].toInt = s.x[rs2.toNat].toInt), pc := s.pc + 4 } ∧
    exec (.neq rs1 rs2 f) s = .next { s with
      eq := decide (s.x[rs1.toNat].toInt ≠ s.x[rs2.toNat].toInt), pc := s.pc + 4 } ∧
    exec (.gt rs1 rs2 f) s = .next { s with
      eq := decide (s.x[rs1.toNat].toInt > s.x[rs2.toNat].toInt), pc := s.pc + 4 } ∧
    exec (.lt rs1 rs2 f) s = .next { s with
      eq := decide (s.x[rs1.toNat].toInt < s.x[rs2.toNat].toInt), pc := s.pc + 4 } ∧
    exec (.gtq rs1 rs2 f) s = .next { s with
      eq := decide (s.x[rs1.toNat].toInt ≥ s.x[rs2.toNat].toInt), pc := s.pc + 4 } ∧
    exec (.ltq rs1 rs2 f) s = .next { s with
      eq := decide (s.x[rs1.toNat].toInt ≤ s.x[rs2.toNat].toInt), pc := s.pc + 4 }

/-- JEQ and JNEQ complete, taken to a target at or above 0, and not taken whatever the register holds; nothing but `pc` changes
(45_branch.md; D10, D11, D18). -/
def Obligations.BranchResult : Prop :=
  ∀ (r : Byte) (f : Option Half) (s : State) (_ : r.toNat < 32) (target : Nat),
    (s.eq = true → (target : Int) = s.x[r.toNat].toInt → exec (.jeq r f) s = .next { s with pc := target }) ∧
    (s.eq = false → exec (.jeq r f) s = .next { s with pc := s.pc + 4 }) ∧
    (s.eq = false → (target : Int) = s.x[r.toNat].toInt → exec (.jneq r f) s = .next { s with pc := target }) ∧
    (s.eq = true → exec (.jneq r f) s = .next { s with pc := s.pc + 4 })

/-- A filler has no effect, whatever its value, 32 and above included (30_encoding.md section 5; that it is never checked is the
spec's decision D17). -/
def Obligations.FillerHasNoEffect : Prop :=
  ∀ (rs1 rs2 f g r : Byte) (ff gg : Option Half) (s : State),
    exec (.eq rs1 rs2 f) s = exec (.eq rs1 rs2 g) s ∧ exec (.neq rs1 rs2 f) s = exec (.neq rs1 rs2 g) s ∧
    exec (.gt rs1 rs2 f) s = exec (.gt rs1 rs2 g) s ∧ exec (.lt rs1 rs2 f) s = exec (.lt rs1 rs2 g) s ∧
    exec (.gtq rs1 rs2 f) s = exec (.gtq rs1 rs2 g) s ∧ exec (.ltq rs1 rs2 f) s = exec (.ltq rs1 rs2 g) s ∧
    exec (.jeq r ff) s = exec (.jeq r gg) s ∧ exec (.jneq r ff) s = exec (.jneq r gg) s

/-! ## Laws of the arithmetic and the comparisons -/

/-- The division law of 41_arithmetic.md section 1 (the spec's decisions D5, D6): where DIV completes, the quotient written is a
32-bit signed value q and `rem` the pattern of r with a = q * d + r, |r| < |d| and r zero or of the sign of a. -/
def Obligations.DivisionLaw : Prop :=
  ∀ (rs1 rs2 rd : Byte) (s t : State) (_ : rs1.toNat < 32) (_ : rs2.toNat < 32) (_ : rd.toNat < 32),
    s.x[rs2.toNat] ≠ 0#32 → ¬(s.x[rs1.toNat] = 0x80000000#32 ∧ s.x[rs2.toNat] = 0xFFFFFFFF#32) →
    exec (.div rs1 rs2 rd) s = .next t →
      s.x[rs1.toNat].toInt = t.x[rd.toNat].toInt * s.x[rs2.toNat].toInt + t.rem.toInt ∧
      t.rem.toInt.natAbs < s.x[rs2.toNat].toInt.natAbs ∧
      (0 ≤ s.x[rs1.toNat].toInt → 0 ≤ t.rem.toInt) ∧ (s.x[rs1.toNat].toInt ≤ 0 → t.rem.toInt ≤ 0)

/-- ADD, SUB and MUL are the arithmetic of 32-bit patterns, so the result is the same whether the operands are read signed or
unsigned (41_arithmetic.md, MUL's corner cases; wrap-around is the spec's decision D3). -/
def Obligations.WrappingArithmeticIsUnsignedToo : Prop :=
  ∀ (rs1 rs2 rd : Byte) (s : State) (_ : rs1.toNat < 32) (_ : rs2.toNat < 32) (_ : rd.toNat < 32),
    exec (.add rs1 rs2 rd) s = .next { s with
      x := s.x.set rd.toNat (BitVec.ofNat 32 (s.x[rs1.toNat].toNat + s.x[rs2.toNat].toNat)), pc := s.pc + 4 } ∧
    exec (.sub rs1 rs2 rd) s = .next { s with
      x := s.x.set rd.toNat (BitVec.ofInt 32 ((s.x[rs1.toNat].toNat : Int) - s.x[rs2.toNat].toNat)),
      pc := s.pc + 4 } ∧
    exec (.mul rs1 rs2 rd) s = .next { s with
      x := s.x.set rd.toNat (BitVec.ofNat 32 (s.x[rs1.toNat].toNat * s.x[rs2.toNat].toNat)), pc := s.pc + 4 }

/-- NEQ negates EQ, GTQ negates LT, LTQ negates GT, on the same operands; and a register compared with itself is equal
(44_compare.md, corner cases, derived by the spec from the comparison rules). -/
def Obligations.ComparisonsComplement : Prop :=
  ∀ (rs1 rs2 f : Byte) (s a b c d e g : State), rs1.toNat < 32 → rs2.toNat < 32 →
    exec (.eq rs1 rs2 f) s = .next a → exec (.neq rs1 rs2 f) s = .next b →
    exec (.gt rs1 rs2 f) s = .next c → exec (.lt rs1 rs2 f) s = .next d →
    exec (.gtq rs1 rs2 f) s = .next e → exec (.ltq rs1 rs2 f) s = .next g →
      b.eq = !a.eq ∧ e.eq = !d.eq ∧ g.eq = !c.eq ∧ e.eq = (c.eq || a.eq) ∧
      (rs1 = rs2 → a.eq = true ∧ b.eq = false ∧ c.eq = false ∧ d.eq = false ∧ e.eq = true ∧ g.eq = true)

/-- LOAD reads its immediate big-endian and unsigned: after a step at bytes LOAD, r, b2, b3 the register holds 256 * b2 + b3,
read signed or unsigned, never above 65535 (30_encoding.md section 3). -/
def Obligations.LoadImmediateBigEndian : Prop :=
  ∀ (s t : State) (r b2 b3 : Byte) (_ : r.toNat < 32), s.status.cause = .running →
    s.prog.readBytes s.pc 4 = .ok [Config.opcodeMap.byteOf .load, r, b2, b3] → step s = .next t →
      t.x[r.toNat].toNat = 256 * b2.toNat + b3.toNat ∧
      t.x[r.toNat].toInt = 256 * (b2.toNat : Int) + b3.toNat ∧ t.x[r.toNat].toNat ≤ 65535

/-! ## Whole instructions, from the bytes of the program -/

/-- LOAD from the bytes at `pc`: TRUNCATED if `a0 + 4 > L`; else BAD_REGISTER if `r >= 32`; else `x[r]` is the big-endian
immediate zero-extended and `pc` is `a0 + 4`, nothing else changed; and the source's own property of LOAD 500 and HLT
(40_load.md; the faults are the spec's decisions D8, D9, D13). -/
def Obligations.LoadInstruction : Prop :=
  (∀ s : State, s.status.cause = .running → s.prog.read s.pc = .ok (Config.opcodeMap.byteOf .load) →
    (s.prog.len < s.pc + 4 → step s = .next { s with status := ⟨.truncated, 0#8⟩ }) ∧
    (∀ r b2 b3 : Byte, s.prog.read (s.pc + 1) = .ok r → s.prog.read (s.pc + 2) = .ok b2 →
      s.prog.read (s.pc + 3) = .ok b3 →
        (32 ≤ r.toNat → step s = .next { s with status := ⟨.badRegister, r⟩ }) ∧
        (∀ _ : r.toNat < 32, step s = .next { s with
          x := s.x.set r.toNat ((b2 ++ b3 : BitVec 16).zeroExtend 32), pc := s.pc + 4 }))) ∧
  (hostRun 2 (State.reset.load
      [Config.opcodeMap.byteOf .load, 0x00#8, 0x01#8, 0xF4#8, Config.opcodeMap.byteOf .hlt])).map
    (fun t => (t.x[0], t.status.cause)) = some (500#32, .halt)

/-- ADD, SUB, MUL from the bytes at `pc`: TRUNCATED if `a0 + 4 > L`; else BAD_REGISTER for the first index of 32 or more; else the
wrapped result in `x[rd]`, `pc` at `a0 + 4`, nothing else changed (41_arithmetic.md; the spec's decisions D3, D8, D9,
D13, D20). -/
def Obligations.AddSubMulInstruction : Prop :=
  ∀ (s : State) (op : Op) (f : Int → Int → Int), s.status.cause = .running →
    (op = .add ∧ f = (fun a b => a + b)) ∨ (op = .sub ∧ f = (fun a b => a - b)) ∨
      (op = .mul ∧ f = (fun a b => a * b)) →
    s.prog.read s.pc = .ok (Config.opcodeMap.byteOf op) →
    (s.prog.len < s.pc + 4 → step s = .next { s with status := ⟨.truncated, 0#8⟩ }) ∧
    (∀ rs1 rs2 rd : Byte, s.prog.read (s.pc + 1) = .ok rs1 → s.prog.read (s.pc + 2) = .ok rs2 →
      s.prog.read (s.pc + 3) = .ok rd →
        (32 ≤ rs1.toNat → step s = .next { s with status := ⟨.badRegister, rs1⟩ }) ∧
        (rs1.toNat < 32 → 32 ≤ rs2.toNat → step s = .next { s with status := ⟨.badRegister, rs2⟩ }) ∧
        (rs1.toNat < 32 → rs2.toNat < 32 → 32 ≤ rd.toNat →
          step s = .next { s with status := ⟨.badRegister, rd⟩ }) ∧
        (∀ (_ : rs1.toNat < 32) (_ : rs2.toNat < 32) (_ : rd.toNat < 32), step s = .next { s with
          x := s.x.set rd.toNat (BitVec.ofInt 32 (f s.x[rs1.toNat].toInt s.x[rs2.toNat].toInt)), pc := s.pc + 4 }))

/-- DIV from the bytes at `pc`, with its four faults in their order (41_arithmetic.md; the spec's decisions D4, D5, D6, D8, D9, D13,
D15, D20). -/
def Obligations.DivInstruction : Prop :=
  ∀ s : State, s.status.cause = .running → s.prog.read s.pc = .ok (Config.opcodeMap.byteOf .div) →
    (s.prog.len < s.pc + 4 → step s = .next { s with status := ⟨.truncated, 0#8⟩ }) ∧
    (∀ rs1 rs2 rd : Byte, s.prog.read (s.pc + 1) = .ok rs1 → s.prog.read (s.pc + 2) = .ok rs2 →
      s.prog.read (s.pc + 3) = .ok rd →
        (32 ≤ rs1.toNat → step s = .next { s with status := ⟨.badRegister, rs1⟩ }) ∧
        (rs1.toNat < 32 → 32 ≤ rs2.toNat → step s = .next { s with status := ⟨.badRegister, rs2⟩ }) ∧
        (rs1.toNat < 32 → rs2.toNat < 32 → 32 ≤ rd.toNat →
          step s = .next { s with status := ⟨.badRegister, rd⟩ }) ∧
        (∀ (_ : rs1.toNat < 32) (_ : rs2.toNat < 32) (_ : rd.toNat < 32),
          (s.x[rs2.toNat] = 0#32 → step s = .next { s with status := ⟨.divByZero, 0#8⟩ }) ∧
          (s.x[rs1.toNat] = 0x80000000#32 → s.x[rs2.toNat] = 0xFFFFFFFF#32 →
            step s = .next { s with status := ⟨.divOverflow, 0#8⟩ }) ∧
          (s.x[rs2.toNat] ≠ 0#32 → ¬(s.x[rs1.toNat] = 0x80000000#32 ∧ s.x[rs2.toNat] = 0xFFFFFFFF#32) →
            step s = .next { s with
              x := s.x.set rd.toNat (BitVec.ofInt 32 (Int.tdiv s.x[rs1.toNat].toInt s.x[rs2.toNat].toInt)),
              rem := BitVec.ofInt 32 (Int.tmod s.x[rs1.toNat].toInt s.x[rs2.toNat].toInt),
              pc := s.pc + 4 })))

/-- R140, HLT, from its byte at `pc`: `pc` passes it, STATUS is (HALT, 0), nothing else changes, the step returns true, and further
steps change nothing. -/
def Obligations.HltInstruction : Prop :=
  (∀ s : State, s.status.cause = .running → s.prog.read s.pc = .ok (Config.opcodeMap.byteOf .hlt) →
    hostStep s = .next ({ s with pc := s.pc + 1, status := ⟨.halt, 0#8⟩ }, true) ∧
    hostStep { s with pc := s.pc + 1, status := ⟨.halt, 0#8⟩ } =
      .next ({ s with pc := s.pc + 1, status := ⟨.halt, 0#8⟩ }, true)) ∧
  (∀ k, (hostRun (k + 1) (State.reset.load [Config.opcodeMap.byteOf .hlt])).map (fun t => (t.pc, t.status)) = some (1, ⟨.halt, 0#8⟩))

/-- JMP, JMPF, JMPB from the bytes at `pc`: TRUNCATED if `a0 + 2 > L`; else BAD_REGISTER if `r >= 32`; else JUMP_UNDERFLOW if the
target is below 0; else `pc` is the target, nothing else changed (43_jump.md; the spec's decisions D8, D9, D10, D11,
D12, D13). -/
def Obligations.JumpInstruction : Prop :=
  ∀ (s : State) (op : Op) (f : Int → Int), s.status.cause = .running →
    (op = .jmp ∧ f = (fun v => v)) ∨ (op = .jmpf ∧ f = (fun v => (s.pc : Int) + 2 + v)) ∨
      (op = .jmpb ∧ f = (fun v => (s.pc : Int) + 2 - v)) →
    s.prog.read s.pc = .ok (Config.opcodeMap.byteOf op) →
    (s.prog.len < s.pc + 2 → step s = .next { s with status := ⟨.truncated, 0#8⟩ }) ∧
    (∀ r : Byte, s.prog.read (s.pc + 1) = .ok r →
      (32 ≤ r.toNat → step s = .next { s with status := ⟨.badRegister, r⟩ }) ∧
      (∀ _ : r.toNat < 32,
        (f s.x[r.toNat].toInt < 0 → step s = .next { s with status := ⟨.jumpUnderflow, 0#8⟩ }) ∧
        (∀ target : Nat, f s.x[r.toNat].toInt = target → step s = .next { s with pc := target })))

/-- EQ and NEQ from the bytes at `pc`: TRUNCATED if `a0 + 4 > L`; else BAD_REGISTER for the first of rs1, rs2 that is 32 or more;
else `eq` is whether the values are equal (EQ) or differ (NEQ), `pc` is `a0 + 4`, nothing else changed, whatever the
filler byte (44_compare.md; the faults and the unchecked filler are the spec's decisions D8, D9, D13, D17). -/
def Obligations.EqNeqInstruction : Prop :=
  ∀ (s : State) (op : Op) (want : Bool), s.status.cause = .running →
    (op = .eq ∧ want = true) ∨ (op = .neq ∧ want = false) →
    s.prog.read s.pc = .ok (Config.opcodeMap.byteOf op) →
    (s.prog.len < s.pc + 4 → step s = .next { s with status := ⟨.truncated, 0#8⟩ }) ∧
    (∀ rs1 rs2 filler : Byte, s.prog.read (s.pc + 1) = .ok rs1 → s.prog.read (s.pc + 2) = .ok rs2 →
      s.prog.read (s.pc + 3) = .ok filler →
        (32 ≤ rs1.toNat → step s = .next { s with status := ⟨.badRegister, rs1⟩ }) ∧
        (rs1.toNat < 32 → 32 ≤ rs2.toNat → step s = .next { s with status := ⟨.badRegister, rs2⟩ }) ∧
        (∀ (_ : rs1.toNat < 32) (_ : rs2.toNat < 32), step s = .next { s with
          eq := decide (s.x[rs1.toNat] = s.x[rs2.toNat]) == want, pc := s.pc + 4 }))

/-- GT, LT, GTQ, LTQ from the bytes at `pc`, as EQ but with the signed order of the values (44_compare.md; that the order is
signed is the spec's decision D7; D8, D9, D13, D17). -/
def Obligations.OrderInstruction : Prop :=
  ∀ (s : State) (op : Op) (f : Int → Int → Bool), s.status.cause = .running →
    (op = .gt ∧ f = (fun a b => decide (b < a))) ∨ (op = .lt ∧ f = (fun a b => decide (a < b))) ∨
      (op = .gtq ∧ f = (fun a b => decide (b ≤ a))) ∨ (op = .ltq ∧ f = (fun a b => decide (a ≤ b))) →
    s.prog.read s.pc = .ok (Config.opcodeMap.byteOf op) →
    (s.prog.len < s.pc + 4 → step s = .next { s with status := ⟨.truncated, 0#8⟩ }) ∧
    (∀ rs1 rs2 filler : Byte, s.prog.read (s.pc + 1) = .ok rs1 → s.prog.read (s.pc + 2) = .ok rs2 →
      s.prog.read (s.pc + 3) = .ok filler →
        (32 ≤ rs1.toNat → step s = .next { s with status := ⟨.badRegister, rs1⟩ }) ∧
        (rs1.toNat < 32 → 32 ≤ rs2.toNat → step s = .next { s with status := ⟨.badRegister, rs2⟩ }) ∧
        (∀ (_ : rs1.toNat < 32) (_ : rs2.toNat < 32), step s = .next { s with
          eq := f s.x[rs1.toNat].toInt s.x[rs2.toNat].toInt, pc := s.pc + 4 }))

/-- JEQ and JNEQ from the bytes at `pc` (45_branch.md): taken (JEQ on true, JNEQ on false) they need 2 bytes and read no filler;
not taken they need 4 and pass them; the index is checked on both paths; a taken target below 0 faults (the spec's
decisions D8, D9, D10, D11, D13, D18, D19). -/
def Obligations.BranchInstruction : Prop :=
  ∀ (s : State) (op : Op) (taken : Bool), s.status.cause = .running →
    (op = .jeq ∧ taken = s.eq) ∨ (op = .jneq ∧ taken = !s.eq) →
    s.prog.read s.pc = .ok (Config.opcodeMap.byteOf op) →
    (taken = true → s.prog.len < s.pc + 2 → step s = .next { s with status := ⟨.truncated, 0#8⟩ }) ∧
    (taken = false → s.prog.len < s.pc + 4 → step s = .next { s with status := ⟨.truncated, 0#8⟩ }) ∧
    (∀ r : Byte, s.prog.read (s.pc + 1) = .ok r →
      (32 ≤ r.toNat → taken = true ∨ s.pc + 4 ≤ s.prog.len →
        step s = .next { s with status := ⟨.badRegister, r⟩ }) ∧
      (∀ _ : r.toNat < 32,
        (taken = true → s.x[r.toNat].toInt < 0 → step s = .next { s with status := ⟨.jumpUnderflow, 0#8⟩ }) ∧
        (∀ target : Nat, taken = true → s.x[r.toNat].toInt = target → step s = .next { s with pc := target }) ∧
        (taken = false → s.pc + 4 ≤ s.prog.len → step s = .next { s with pc := s.pc + 4 })))

/-! ## Frames: what no instruction changes -/

/-- R36: the program is empty after reset, no instruction and no step changes a byte of it or its length, and of the host's
operations only `load` replaces it (`new` resets it). -/
def Obligations.ProgramChangedOnlyByLoad : Prop :=
  (∀ (i : Instr) (s t : State), exec i s = .next t →
    t.prog.len = s.prog.len ∧ ∀ a, t.prog.read a = s.prog.read a) ∧
  (∀ s t : State, step s = .next t → t.prog = s.prog) ∧
  (∀ (op : HostOp) (s t : State), op ≠ .new → (∀ bs, op ≠ .load bs) → hostApply op s = .next t → t.prog = s.prog) ∧
  State.reset.prog = Memory.ofBytes []

/-- Every general register but the destination keeps its value, in every next state of every instruction: LOAD may change `x[r]`,
ADD, SUB, MUL, DIV `x[rd]`, the others none (10_state.md section 1). -/
def Obligations.OnlyDestinationRegisterChanges : Prop :=
  ∀ (i : Instr) (s t : State) (k : Nat) (_ : k < 32), exec i s = .next t →
    (match i with
      | .load r _ => r.toNat ≠ k
      | .add _ _ rd => rd.toNat ≠ k
      | .sub _ _ rd => rd.toNat ≠ k
      | .mul _ _ rd => rd.toNat ≠ k
      | .div _ _ rd => rd.toNat ≠ k
      | .hlt => True | .jmp _ => True | .jmpf _ => True | .jmpb _ => True
      | .eq _ _ _ => True | .neq _ _ _ => True | .gt _ _ _ => True
      | .lt _ _ _ => True | .gtq _ _ _ => True | .ltq _ _ _ => True
      | .jeq _ _ => True | .jneq _ _ => True) → t.x[k] = s.x[k]

/-- The equal flag keeps its value in every next state of every instruction but the six comparisons (10_state.md section 3). -/
def Obligations.OnlyComparisonsWriteEq : Prop :=
  ∀ (i : Instr) (s t : State), exec i s = .next t → t.eq ≠ s.eq →
    i.op = .eq ∨ i.op = .neq ∨ i.op = .gt ∨ i.op = .lt ∨ i.op = .gtq ∨ i.op = .ltq

/-- The remainder register keeps its value in every next state of every instruction but a DIV that completes (10_state.md
section 4; that a fault keeps it is the spec's decision D13). -/
def Obligations.OnlyCompletedDivWritesRem : Prop :=
  ∀ (i : Instr) (s t : State), exec i s = .next t → t.rem ≠ s.rem →
    i.op = .div ∧ t.status = s.status ∧ t.pc = s.pc + 4

/-- STATUS keeps its value in every next state of every instruction but HLT, which writes (HALT, 0), and a fault, which leaves
`pc` and everything else as it was (10_state.md section 5; the register is the spec's decision D14, the state after a fault
D13). -/
def Obligations.OnlyStopsWriteStatus : Prop :=
  ∀ (i : Instr) (s t : State), exec i s = .next t → t.status ≠ s.status →
    (i = .hlt ∧ t.status = ⟨.halt, 0#8⟩) ∨
    ((t.status.cause = .badRegister ∨ t.status.cause = .divByZero ∨ t.status.cause = .divOverflow ∨
      t.status.cause = .jumpUnderflow) ∧ t = { s with status := t.status })

/-- The equal flag is read by JEQ and JNEQ only (10_state.md section 3): with another value of the flag any other instruction
reaches the same next state, or one that differs in the flag alone, which has that value. -/
def Obligations.EqReadOnlyByConditionalJumps : Prop :=
  ∀ (i : Instr) (s t : State) (b : Bool), i.op ≠ .jeq → i.op ≠ .jneq → exec i s = .next t →
    exec i { s with eq := b } = .next t ∨ exec i { s with eq := b } = .next { t with eq := b }

/-- The remainder register is read by no instruction (10_state.md section 4): with another value in it every instruction reaches
the same next state, or one that differs in the remainder register alone, which has that value. -/
def Obligations.RemReadByNoInstruction : Prop :=
  ∀ (i : Instr) (s t : State) (v : Word), exec i s = .next t →
    exec i { s with rem := v } = .next t ∨ exec i { s with rem := v } = .next { t with rem := v }

/-! ## Invariants -/

/-- What reset leaves (70_reset_and_hazards.md section 1; that STATUS is (RUNNING, 0) is the spec's decision D29), and that a
step right after it halts with END. -/
def Obligations.ResetState : Prop :=
  (∀ (k : Nat) (_ : k < 32), State.reset.x[k] = 0#32) ∧ State.reset.pc = 0 ∧ State.reset.eq = false ∧
  State.reset.rem = 0#32 ∧ State.reset.status.cause = .running ∧ State.reset.status.word = 0#16 ∧
  State.reset.prog.len = 0 ∧
  hostStep State.reset = .next ({ State.reset with status := ⟨.endOfProgram, 0#8⟩ }, true)

/-- The invariant of Safety.lean holds after reset. -/
def Obligations.ResetHasInvariant : Prop := State.reset.Inv

/-- Every step keeps the invariant: the program store stays canonical (log 2) and within MAX_PROG_LEN, `pc` stays below 2^33
(the spec's decision D16), and INFO agrees with CAUSE (D14). -/
def Obligations.StepKeepsInvariant : Prop :=
  ∀ s t : State, s.Inv → step s = .next t → t.Inv

/-- So does every operation of the host: `new`, `load` of any bytes, `step`, and every `poke` (the spec's decisions D16, D21,
D22). -/
def Obligations.HostOperationsKeepInvariant : Prop :=
  ∀ (op : HostOp) (s t : State), s.Inv → hostApply op s = .next t → t.Inv

/-- Every state that host operations reach from reset has the invariant, and no sequence of host operations ends in a fault or
a refusal. -/
def Obligations.ReachableStatesHaveInvariant : Prop :=
  (∀ s : State, s.Reachable → s.Inv) ∧
  (∀ ops : List HostOp, ∃ t, hostApplyAll ops State.reset = .next t)

/-- The bound on `pc` of 10_state.md section 2 (the spec's decision D16): a step from a state with the invariant leaves `pc`
where it was or at most at (2^32 - 1) + 2^31. -/
def Obligations.PcNeverWraps : Prop :=
  ∀ s t : State, s.Inv → step s = .next t → t.pc = s.pc ∨ t.pc ≤ (2 ^ 32 - 1) + 2 ^ 31

/-- After a step that executed an instruction that is no jump, `pc` is at most L (10_state.md section 2, derived there). -/
def Obligations.NonJumpStaysInProgram : Prop :=
  ∀ (s t : State) (i : Instr), s.status.cause = .running → s.HoldsAtPc Config.opcodeMap i →
    i.op ≠ .jmp → i.op ≠ .jmpf → i.op ≠ .jmpb → i.op ≠ .jeq → i.op ≠ .jneq → step s = .next t →
      t.pc ≤ t.prog.len

/-! ## The host's operations -/

/-- `load`: the program's bytes and length are those given, STATUS is (RUNNING, 0), all else is kept; a program longer than
2^32 - 1 bytes changes nothing (70_reset_and_hazards.md section 2; the spec's decisions D16, D21). -/
def Obligations.LoadReplacesProgram : Prop :=
  (∀ (s : State) (bs : List Byte), bs.length ≤ 2 ^ 32 - 1 →
    (s.load bs).x = s.x ∧ (s.load bs).pc = s.pc ∧ (s.load bs).rem = s.rem ∧ (s.load bs).eq = s.eq ∧
    (s.load bs).status = ⟨.running, 0#8⟩ ∧ (s.load bs).prog.len = bs.length ∧
    (∀ (a : Nat) (_ : a < bs.length), (s.load bs).prog.read a = .ok bs[a]) ∧
    (∀ a, bs.length ≤ a → (s.load bs).prog.read a = .error (.outsideProgram a))) ∧
  (∀ (s : State) (bs : List Byte), 2 ^ 32 - 1 < bs.length → s.load bs = s)

/-- Equal programs are equal data (log 2, the model's choice of representation): two stores in the canonical form that read
alike at every address are equal. -/
def Obligations.ProgramStoreCanonical : Prop :=
  ∀ m n : Memory, m.wf = true → n.wf = true → (∀ a, m.read a = n.read a) → m = n

/-- A `poke` writes the one thing it names and nothing else; in particular it does not change STATUS (70_reset_and_hazards.md
section 2; the spec's decision D22). -/
def Obligations.PokeWritesOneThing : Prop :=
  ∀ (s : State) (i : Fin 32) (v : Word) (p : BitVec 33) (b : Bool),
    hostApply (.pokeReg i v) s = .next { s with x := s.x.set i v } ∧
    hostApply (.pokePc p) s = .next { s with pc := p.toNat } ∧
    hostApply (.pokeRem v) s = .next { s with rem := v } ∧
    hostApply (.pokeEq b) s = .next { s with eq := b }

/-- A halt is left only by `load` or `new`: any other operations, however many, leave STATUS and the program as they are
(60_exceptions.md section 1; the spec's decisions D14, D21, D22). -/
def Obligations.HaltLeftOnlyByLoadOrNew : Prop :=
  ∀ (ops : List HostOp) (s t : State), s.status.cause ≠ .running →
    (∀ op ∈ ops, op ≠ .new ∧ ∀ bs, op ≠ .load bs) → hostApplyAll ops s = .next t →
      t.status = s.status ∧ t.prog = s.prog

/-- `run` repeats `step` until it returns true (70_reset_and_hazards.md section 2; fuel is the model's, log 9): it ends in a
halted state after some number of steps, more fuel changes nothing, and on a halted core it ends at once. -/
def Obligations.RunStepsUntilHalted : Prop :=
  (∀ (k : Nat) (s t : State), hostRun k s = some t →
    t.status.cause ≠ .running ∧ ∃ j, j ≤ k ∧ Sys2Proof.core.run j s = .next t) ∧
  (∀ (k : Nat) (s t : State), Sys2Proof.core.run k s = .next t → t.status.cause ≠ .running →
    hostRun (k + 1) s = some t) ∧
  (∀ (k n : Nat) (s t : State), hostRun k s = some t → hostRun (k + n) s = some t) ∧
  (∀ (k : Nat) (s : State), s.status.cause ≠ .running → hostRun (k + 1) s = some s)

/-- STATUS as the host reads it: CAUSE in bits 3:0 with the codes of the table, bits 7:4 zero, INFO in bits 15:8; no cause code
is above 8; halted is CAUSE other than 0; HALT and END are the clean ends, 3 to 8 the faults (10_state.md section 5; the
layout and the codes are the spec's decision D14). -/
def Obligations.StatusWordLayout : Prop :=
  (∀ st : Status, st.word.extractLsb' 0 4 = st.cause.code ∧ st.word.extractLsb' 4 4 = 0#4 ∧
    st.word.extractLsb' 8 8 = st.info ∧ (st.word.extractLsb' 0 4).toNat ≤ 8) ∧
  (∀ s : State, (s.halted = true ↔ s.status.word.extractLsb' 0 4 ≠ 0#4) ∧
    (s.endedCleanly = true ↔ s.status.word.extractLsb' 0 4 = 1#4 ∨ s.status.word.extractLsb' 0 4 = 2#4) ∧
    (s.faulted = true ↔ 3 ≤ (s.status.word.extractLsb' 0 4).toNat)) ∧
  [Cause.running, Cause.halt, Cause.endOfProgram, Cause.illegalOpcode, Cause.truncated, Cause.badRegister,
    Cause.divByZero, Cause.divOverflow, Cause.jumpUnderflow].map (fun c => c.code.toNat) = [0, 1, 2, 3, 4, 5, 6, 7, 8]
end

