-- ==== Sys2Proof/Laws/Decode.lean ====
section
/-! SUPPORT. The decoder and the encoder: byte order, opcode bytes, what each answer of the decoder means. -/

namespace Sys2Proof

/-! ## Byte order -/

/-- The 16-bit field as a number, the first byte the high one (R54). -/
theorem half_toNat (hi lo : Byte) : (half hi lo).toNat = 256 * hi.toNat + lo.toNat := by
  have h := Nat.two_pow_add_eq_or_of_lt (i := 8) lo.isLt hi.toNat
  rw [half, BitVec.toNat_append, Nat.shiftLeft_eq, Nat.mul_comm, ← h]

theorem hiByte_toNat (h : Half) : (hiByte h).toNat = h.toNat / 256 := by
  have := h.isLt
  simp [hiByte, BitVec.extractLsb'_toNat, Nat.shiftRight_eq_div_pow]
  omega

theorem loByte_toNat (h : Half) : (loByte h).toNat = h.toNat % 256 := by
  simp [loByte, BitVec.extractLsb'_toNat]

@[simp] theorem half_hiByte_loByte (h : Half) : half (hiByte h) (loByte h) = h := by
  apply BitVec.eq_of_toNat_eq
  rw [half_toNat, hiByte_toNat, loByte_toNat]
  omega

@[simp] theorem hiByte_half (hi lo : Byte) : hiByte (half hi lo) = hi := by
  apply BitVec.eq_of_toNat_eq
  have := lo.isLt
  rw [hiByte_toNat, half_toNat]
  omega

@[simp] theorem loByte_half (hi lo : Byte) : loByte (half hi lo) = lo := by
  apply BitVec.eq_of_toNat_eq
  have := lo.isLt
  rw [loByte_toNat, half_toNat]
  omega

/-! ## Opcode bytes -/

theorem mem_opAll (op : Op) : op ∈ Op.all := by cases op <;> decide

/-- The opcode byte of a mnemonic decodes to that mnemonic and to no other (R77). -/
theorem decodeOp_eq_some_iff {m : OpcodeMap} {b : Byte} {op : Op} :
    decodeOp m b = some op ↔ m.byteOf op = b := by
  constructor
  · intro h
    simpa using List.find?_some h
  · rintro rfl
    cases h : decodeOp m (m.byteOf op) with
    | none =>
      have := List.find?_eq_none.mp h op (mem_opAll op)
      simp at this
    | some op' =>
      have h' : m.byteOf op' = m.byteOf op := by simpa using List.find?_some h
      rw [m.injective _ _ h']

@[simp] theorem decodeOp_byteOf (m : OpcodeMap) (op : Op) : decodeOp m (m.byteOf op) = some op :=
  decodeOp_eq_some_iff.mpr rfl

theorem decodeOp_eq_none_iff {m : OpcodeMap} {b : Byte} :
    decodeOp m b = none ↔ ∀ op, m.byteOf op ≠ b := by
  constructor
  · intro h op hb
    rw [decodeOp_eq_some_iff.mpr hb] at h
    cases h
  · intro h
    cases hd : decodeOp m b with
    | none => rfl
    | some op => exact absurd (decodeOp_eq_some_iff.mp hd) (h op)

/-! ## The answers of the decoder -/

/-- What an instruction of one operand byte decodes to. -/
theorem take1_eq_instr_iff {bs : List Byte} {k : Byte → Instr} {i : Instr} {rest : List Byte} :
    take1 bs k = .instr i rest ↔ ∃ a, bs = a :: rest ∧ i = k a := by
  cases bs with
  | nil => simp [take1]
  | cons a r =>
    simp only [take1, Decoded.instr.injEq, List.cons.injEq]
    constructor
    · rintro ⟨rfl, rfl⟩; exact ⟨a, ⟨rfl, rfl⟩, rfl⟩
    · rintro ⟨_, ⟨rfl, rfl⟩, rfl⟩; exact ⟨rfl, rfl⟩

/-- What an instruction of three operand bytes decodes to. -/
theorem take3_eq_instr_iff {bs : List Byte} {k : Byte → Byte → Byte → Instr} {i : Instr} {rest : List Byte} :
    take3 bs k = .instr i rest ↔ ∃ a b c, bs = a :: b :: c :: rest ∧ i = k a b c := by
  match bs with
  | [] => simp [take3]
  | [a] => simp [take3]
  | [a, b] => simp [take3]
  | a :: b :: c :: r =>
    simp only [take3, Decoded.instr.injEq, List.cons.injEq]
    constructor
    · rintro ⟨rfl, rfl⟩; exact ⟨a, b, c, ⟨rfl, rfl, rfl, rfl⟩, rfl⟩
    · rintro ⟨_, _, _, ⟨rfl, rfl, rfl, rfl⟩, rfl⟩; exact ⟨rfl, rfl⟩

/-- An instruction of one operand byte is truncated exactly when that byte is missing. -/
theorem take1_eq_truncated_iff {bs : List Byte} {k : Byte → Instr} :
    take1 bs k = .truncated ↔ bs.length < 1 := by
  cases bs <;> simp [take1]

/-- An instruction of three operand bytes is truncated exactly when one of them is missing. -/
theorem take3_eq_truncated_iff {bs : List Byte} {k : Byte → Byte → Byte → Instr} :
    take3 bs k = .truncated ↔ bs.length < 3 := by
  match bs with
  | [] => simp [take3]
  | [a] => simp [take3]
  | [a, b] => simp [take3]
  | a :: b :: c :: r => simp [take3]

@[simp] theorem take1_ne_noByte (bs : List Byte) (k : Byte → Instr) : take1 bs k ≠ .noByte := by
  cases bs <;> simp [take1]

@[simp] theorem take3_ne_noByte (bs : List Byte) (k : Byte → Byte → Byte → Instr) : take3 bs k ≠ .noByte := by
  match bs with
  | [] => simp [take3]
  | [a] => simp [take3]
  | [a, b] => simp [take3]
  | a :: b :: c :: r => simp [take3]

@[simp] theorem take1_ne_illegal (bs : List Byte) (k : Byte → Instr) (b : Byte) : take1 bs k ≠ .illegal b := by
  cases bs <;> simp [take1]

@[simp] theorem take3_ne_illegal (bs : List Byte) (k : Byte → Byte → Byte → Instr) (b : Byte) :
    take3 bs k ≠ .illegal b := by
  match bs with
  | [] => simp [take3]
  | [a] => simp [take3]
  | [a, b] => simp [take3]
  | a :: b :: c :: r => simp [take3]

/-- The operands are truncated exactly when there are fewer bytes than the length of R78 asks for. -/
theorem decodeOperands_eq_truncated_iff {op : Op} {eq : Bool} {bs : List Byte} :
    decodeOperands op eq bs = .truncated ↔ bs.length + 1 < op.length eq := by
  cases op <;> cases eq <;>
    simp [decodeOperands, Op.length, take1_eq_truncated_iff, take3_eq_truncated_iff] <;> omega

theorem decodeOperands_ne_noByte (op : Op) (eq : Bool) (bs : List Byte) : decodeOperands op eq bs ≠ .noByte := by
  cases op <;> cases eq <;> simp [decodeOperands]

theorem decodeOperands_ne_illegal (op : Op) (eq : Bool) (bs : List Byte) (b : Byte) :
    decodeOperands op eq bs ≠ .illegal b := by
  cases op <;> cases eq <;> simp [decodeOperands]

@[simp] theorem decode_nil (m : OpcodeMap) (eq : Bool) : decode m eq [] = .noByte := rfl

theorem decode_cons_none {m : OpcodeMap} {eq : Bool} {b : Byte} {bs : List Byte} (h : decodeOp m b = none) :
    decode m eq (b :: bs) = .illegal b := by simp [decode, h]

theorem decode_cons_some {m : OpcodeMap} {eq : Bool} {b : Byte} {bs : List Byte} {op : Op}
    (h : decodeOp m b = some op) : decode m eq (b :: bs) = decodeOperands op eq bs := by simp [decode, h]

/-- Everything the decoder can answer, and when. -/
theorem decode_cases (m : OpcodeMap) (eq : Bool) (bs : List Byte) :
    (bs = [] ∧ decode m eq bs = .noByte) ∨
    (∃ b rest, bs = b :: rest ∧ decodeOp m b = none ∧ decode m eq bs = .illegal b) ∨
    (∃ b rest op, bs = b :: rest ∧ decodeOp m b = some op ∧ bs.length < op.length eq ∧
      decode m eq bs = .truncated) ∨
    (∃ b rest op i after, bs = b :: rest ∧ decodeOp m b = some op ∧ op.length eq ≤ bs.length ∧
      decodeOperands op eq rest = .instr i after ∧ decode m eq bs = .instr i after) := by
  cases bs with
  | nil => exact .inl ⟨rfl, rfl⟩
  | cons b rest =>
    cases h : decodeOp m b with
    | none => exact .inr (.inl ⟨b, rest, rfl, h, decode_cons_none h⟩)
    | some op =>
      have hd := decode_cons_some (eq := eq) (bs := rest) h
      have ht := @decodeOperands_eq_truncated_iff op eq rest
      cases hdo : decodeOperands op eq rest with
      | noByte => exact absurd hdo (decodeOperands_ne_noByte _ _ _)
      | illegal b' => exact absurd hdo (decodeOperands_ne_illegal _ _ _ _)
      | truncated =>
        exact .inr (.inr (.inl ⟨b, rest, op, rfl, h, by simpa using ht.mp hdo, by rw [hd, hdo]⟩))
      | instr i after =>
        have hn : ¬ rest.length + 1 < op.length eq := fun hl => by rw [ht.mpr hl] at hdo; cases hdo
        exact .inr (.inr (.inr ⟨b, rest, op, i, after, rfl, h, by simp; omega, hdo, by rw [hd, hdo]⟩))

/-- The length of an instruction in the form the flag selects is that of R78. -/
theorem encode_length {i : Instr} {eq : Bool} (m : OpcodeMap) (h : i.fitsFlag eq = true) :
    (encode m i).length = i.op.length eq := by
  cases i with
  | jeq r f => cases f <;> cases eq <;> simp_all [encode, operandBytes, Instr.op, Op.length, Instr.fitsFlag]
  | jneq r f => cases f <;> cases eq <;> simp_all [encode, operandBytes, Instr.op, Op.length, Instr.fitsFlag]
  | _ => simp [encode, operandBytes, Instr.op, Op.length]

theorem length_pos (op : Op) (eq : Bool) : 1 ≤ op.length eq := by cases op <;> cases eq <;> decide

theorem length_le_four (op : Op) (eq : Bool) : op.length eq ≤ 4 := by cases op <;> cases eq <;> decide

end Sys2Proof
end

