-- ==== Sys2Proof/Laws/Memory.lean ====
section
/-! SUPPORT. The program store: what a read answers, that every operation keeps the canonical form, and reading what was put. -/

namespace Sys2Proof.Machine

/-! ## Reads -/

theorem read_of_lt {m : Memory} {a : Nat} (h : a < m.len) : m.read a = .ok (lookupCell m.cells a) := by
  simp [Memory.read, h]

theorem read_of_le {m : Memory} {a : Nat} (h : m.len ≤ a) : m.read a = .error (.outsideProgram a) := by
  simp [Memory.read, Nat.not_lt.mpr h]

/-- A read answers exactly below L. -/
theorem read_eq_ok_iff {m : Memory} {a : Nat} {b : Byte} :
    m.read a = .ok b ↔ a < m.len ∧ lookupCell m.cells a = b := by
  by_cases h : a < m.len <;> simp [Memory.read, h]

theorem lt_len_of_read {m : Memory} {a : Nat} {b : Byte} (h : m.read a = .ok b) : a < m.len :=
  (read_eq_ok_iff.mp h).1

@[simp] theorem readBytes_zero (m : Memory) (a : Nat) : m.readBytes a 0 = .ok [] := rfl

/-- A string of bytes is read byte by byte. -/
theorem readBytes_succ_eq_ok_iff {m : Memory} {a n : Nat} {b : Byte} {bs : List Byte} :
    m.readBytes a (n + 1) = .ok (b :: bs) ↔ m.read a = .ok b ∧ m.readBytes (a + 1) n = .ok bs := by
  simp only [Memory.readBytes]
  cases m.read a with
  | error f => simp
  | ok c => cases m.readBytes (a + 1) n with
    | error f => simp
    | ok cs => simp

/-- A read of `n` bytes that stays below L answers, with those bytes. -/
theorem readBytes_of_le {m : Memory} {a n : Nat} (h : a + n ≤ m.len ∨ n = 0) :
    m.readBytes a n = .ok ((List.range' a n).map (lookupCell m.cells)) := by
  induction n generalizing a with
  | zero => simp
  | succ n ih =>
    have h1 : a < m.len := by omega
    simp [Memory.readBytes, read_of_lt h1, ih (a := a + 1) (by omega), List.range'_succ]

theorem readBytes_length {m : Memory} {a n : Nat} {bs : List Byte} (h : m.readBytes a n = .ok bs) :
    bs.length = n := by
  induction n generalizing a bs with
  | zero => simp at h; simp [← h]
  | succ n ih =>
    cases bs with
    | nil =>
      simp only [Memory.readBytes] at h
      split at h
      · cases h
      · split at h <;> cases h
    | cons b bs => simp [ih (readBytes_succ_eq_ok_iff.mp h).2]

/-- Only a read that stays below L answers. -/
theorem readBytes_le_len {m : Memory} {a n : Nat} {bs : List Byte} (h : m.readBytes a n = .ok bs) :
    a + n ≤ m.len ∨ n = 0 := by
  induction n generalizing a bs with
  | zero => simp
  | succ n ih =>
    cases bs with
    | nil => simpa using readBytes_length h
    | cons b bs =>
      have h' := readBytes_succ_eq_ok_iff.mp h
      have := lt_len_of_read h'.1
      rcases ih h'.2 with h2 | h2 <;> omega

/-- `n` bytes are read as `bs` exactly when all of them are below L and they are the bytes of `cells`. -/
theorem readBytes_eq_ok_iff {m : Memory} {a n : Nat} {bs : List Byte} :
    m.readBytes a n = .ok bs ↔
      (a + n ≤ m.len ∨ n = 0) ∧ bs = (List.range' a n).map (lookupCell m.cells) := by
  constructor
  · intro h
    have h1 := readBytes_le_len h
    exact ⟨h1, by have := readBytes_of_le h1; rw [h] at this; exact Except.ok.inj this⟩
  · rintro ⟨h1, rfl⟩
    exact readBytes_of_le h1

/-! ## The canonical form -/

theorem cellsOk_mono {lo lo' len : Nat} {cells : List Host.Cell} (h : lo' ≤ lo)
    (ok : cellsOk lo len cells = true) : cellsOk lo' len cells = true := by
  cases cells with
  | nil => rfl
  | cons c rest => simp [cellsOk] at ok ⊢; exact ⟨⟨⟨by omega, ok.1.1.2⟩, ok.1.2⟩, ok.2⟩

theorem cellsOk_len_mono {lo len len' : Nat} {cells : List Host.Cell} (h : len ≤ len')
    (ok : cellsOk lo len cells = true) : cellsOk lo len' cells = true := by
  induction cells generalizing lo with
  | nil => rfl
  | cons c rest ih =>
    simp [cellsOk] at ok ⊢
    exact ⟨⟨⟨ok.1.1.1, by omega⟩, ok.1.2⟩, ih ok.2⟩

/-- Nothing is listed below the first address of a canonical list. -/
theorem lookupCell_below {lo len a : Nat} {cells : List Host.Cell} (ok : cellsOk lo len cells = true)
    (h : a < lo) : lookupCell cells a = Memory.unlisted := by
  induction cells generalizing lo with
  | nil => rfl
  | cons c rest ih =>
    simp [cellsOk] at ok
    have : c.1 ≠ a := by omega
    simp [lookupCell, this, ih ok.2 (by omega)]

/-- What a put answers: a canonical list stays canonical. -/
theorem cellsOk_putCell {lo len a : Nat} {cells : List Host.Cell} (b : Byte)
    (ok : cellsOk lo len cells = true) (hlo : lo ≤ a) (hlen : a < len) :
    cellsOk lo len (putCell cells a b) = true := by
  induction cells generalizing lo with
  | nil => by_cases hb : b = Memory.unlisted <;> simp [putCell, cellFor, cellsOk, hb, hlo, hlen]
  | cons c rest ih =>
    simp [cellsOk] at ok
    by_cases h1 : a < c.1
    · by_cases hb : b = Memory.unlisted
      · simp [putCell, cellFor, cellsOk, h1, hb, ok]
      · simp [putCell, cellFor, cellsOk, h1, hb, ok, hlo, hlen]
    · by_cases h2 : c.1 = a
      · by_cases hb : b = Memory.unlisted
        · simp [putCell, cellFor, h2, hb]
          exact cellsOk_mono (by omega) ok.2
        · simp [putCell, cellFor, cellsOk, h2, hb, hlo, hlen]
          exact cellsOk_mono (by omega) ok.2
      · simp [putCell, cellsOk, h1, h2, ok, ih ok.2 (by omega)]

theorem lookupCell_cellFor (a k : Nat) (b : Byte) :
    lookupCell (cellFor a b) k = if k = a then b else Memory.unlisted := by
  by_cases hb : b = Memory.unlisted
  · simp [cellFor, hb, lookupCell]
  · simp [cellFor, hb, lookupCell, eq_comm]

theorem lookupCell_cellFor_append (a k : Nat) (b : Byte) (rest : List Host.Cell)
    (h : k = a → lookupCell rest k = Memory.unlisted) :
    lookupCell (cellFor a b ++ rest) k = if k = a then b else lookupCell rest k := by
  by_cases hb : b = Memory.unlisted
  · by_cases hk : k = a
    · simp [cellFor, hb, hk]; simpa [hk] using h hk
    · simp [cellFor, hb, hk]
  · simp [cellFor, hb, lookupCell, eq_comm]

/-- What a put answers: the byte at its address, and every other address as before. -/
theorem lookupCell_putCell {lo len a k : Nat} {cells : List Host.Cell} (b : Byte)
    (ok : cellsOk lo len cells = true) :
    lookupCell (putCell cells a b) k = if k = a then b else lookupCell cells k := by
  induction cells generalizing lo with
  | nil => simp [putCell, lookupCell_cellFor, lookupCell]
  | cons c rest ih =>
    simp [cellsOk] at ok
    by_cases h1 : a < c.1
    · rw [putCell, if_pos h1, lookupCell_cellFor_append]
      intro hk
      have h2 : c.1 ≠ k := by omega
      simp [lookupCell, h2, lookupCell_below ok.2 (by omega : k < c.1 + 1)]
    · by_cases h2 : c.1 = a
      · rw [putCell, if_neg h1, if_pos h2, lookupCell_cellFor_append]
        · by_cases hk : k = a
          · simp [hk]
          · have : c.1 ≠ k := by omega
            simp [hk, lookupCell, this]
        · intro hk
          exact lookupCell_below ok.2 (by omega)
      · by_cases hk : c.1 = k
        · have : k ≠ a := by omega
          rw [putCell, if_neg h1, if_neg h2]
          simp [lookupCell, hk, this]
        · simp [putCell, h1, h2, lookupCell, hk, ih ok.2]

theorem cellsOk_putCells {len a : Nat} {cells : List Host.Cell} (bs : List Byte)
    (ok : cellsOk 0 len cells = true) (h : a + bs.length ≤ len) :
    cellsOk 0 len (putCells cells a bs) = true := by
  induction bs generalizing a cells with
  | nil => exact ok
  | cons b bs ih =>
    simp at h
    exact ih (cellsOk_putCell b ok (by omega) (by omega)) (by omega)

/-- Putting bytes at an address keeps the canonical form. -/
theorem place_wf {m : Memory} (a : Nat) (bs : List Byte) (h : m.wf = true) : (m.place a bs).wf = true :=
  cellsOk_putCells bs (cellsOk_len_mono (Nat.le_max_left _ _) h) (Nat.le_max_right _ _)

theorem lookupCell_putCells {len a k : Nat} {cells : List Host.Cell} (bs : List Byte)
    (ok : cellsOk 0 len cells = true) (h : a + bs.length ≤ len) :
    lookupCell (putCells cells a bs) k =
      if a ≤ k ∧ k < a + bs.length then bs.getD (k - a) 0#8 else lookupCell cells k := by
  induction bs generalizing a cells with
  | nil =>
    have : ¬(a ≤ k ∧ k < a) := by omega
    simp [putCells, this]
  | cons b bs ih =>
    simp at h
    rw [putCells, ih (cellsOk_putCell b ok (by omega) (by omega)) (by omega), lookupCell_putCell b ok]
    simp only [List.length_cons]
    by_cases hk : k = a
    · subst hk
      have h1 : ¬(k + 1 ≤ k ∧ k < k + 1 + bs.length) := by omega
      have h2 : k ≤ k ∧ k < k + (bs.length + 1) := by omega
      rw [if_neg h1, if_pos rfl, if_pos h2]; simp
    · by_cases h3 : a ≤ k ∧ k < a + (bs.length + 1)
      · have h4 : a + 1 ≤ k ∧ k < a + 1 + bs.length := by omega
        obtain ⟨j, rfl⟩ : ∃ j, k = a + 1 + j := ⟨k - (a + 1), by omega⟩
        have h5 : a + 1 + j - a = j + 1 := by omega
        rw [if_pos h4, if_pos h3, h5]; simp
      · have h4 : ¬(a + 1 ≤ k ∧ k < a + 1 + bs.length) := by omega
        rw [if_neg h4, if_neg h3, if_neg hk]

/-- Reading after putting bytes: the bytes put, and what was there elsewhere, within the new length. -/
theorem read_place {m : Memory} (a k : Nat) (bs : List Byte) (h : m.wf = true) :
    (m.place a bs).read k =
      if a ≤ k ∧ k < a + bs.length then .ok (bs.getD (k - a) 0#8)
      else if k < max m.len (a + bs.length) then .ok (lookupCell m.cells k)
      else .error (.outsideProgram k) := by
  have h1 := lookupCell_putCells (k := k) bs (cellsOk_len_mono (Nat.le_max_left m.len (a + bs.length)) h)
    (Nat.le_max_right _ _)
  by_cases h2 : a ≤ k ∧ k < a + bs.length
  · rw [if_pos h2] at h1
    rw [read_of_lt (by simp [Memory.place]; omega), if_pos h2]; simp [Memory.place, h1]
  · rw [if_neg h2] at h1
    by_cases h3 : k < max m.len (a + bs.length)
    · rw [read_of_lt (m := m.place a bs) h3, if_neg h2, if_pos h3]; simp [Memory.place, h1]
    · rw [read_of_le (m := m.place a bs) (by simpa [Memory.place] using h3), if_neg h2, if_neg h3]

/-! ## The store that `load` builds -/

theorem cellsOk_cellsFrom (a len : Nat) (bs : List Byte) (h : a + bs.length ≤ len) :
    cellsOk a len (cellsFrom a bs) = true := by
  induction bs generalizing a with
  | nil => rfl
  | cons b bs ih =>
    simp at h
    have h1 := ih (a + 1) (by omega)
    by_cases hb : b = Memory.unlisted
    · simp [cellsFrom, cellFor, hb, cellsOk_mono (Nat.le_succ a) h1]
    · simp [cellsFrom, cellFor, cellsOk, hb, h1]; omega

/-- The store of a string of bytes is in the canonical form. -/
theorem ofBytes_wf (bs : List Byte) : (Memory.ofBytes bs).wf = true :=
  cellsOk_cellsFrom 0 bs.length bs (by omega)

theorem lookupCell_cellsFrom (a k : Nat) (bs : List Byte) (h : a ≤ k) (hk : k < a + bs.length) :
    lookupCell (cellsFrom a bs) k = bs[k - a] := by
  induction bs generalizing a with
  | nil => simp at hk; omega
  | cons b bs ih =>
    simp at hk
    have h1 := cellsOk_cellsFrom (a + 1) (a + 1 + bs.length) bs (by omega)
    rw [cellsFrom, lookupCell_cellFor_append]
    · by_cases h2 : k = a
      · subst h2; simp
      · obtain ⟨j, rfl⟩ : ∃ j, k = a + 1 + j := ⟨k - (a + 1), by omega⟩
        have h5 : a + 1 + j - a = j + 1 := by omega
        rw [if_neg h2, ih (a + 1) (by omega) (by omega)]
        simp [h5]
    · intro h2
      exact lookupCell_below h1 (by omega)

/-- The empty store of reset is in the canonical form. -/
theorem reset_prog_wf : State.reset.prog.wf = true := rfl

/-- `load` keeps the canonical form. -/
theorem load_wf (s : State) (bs : List Byte) (h : s.prog.wf = true) : (s.load bs).prog.wf = true := by
  unfold State.load
  split
  · exact ofBytes_wf bs
  · exact h

end Sys2Proof.Machine
end

