-- ==== Sys2Proof/Laws/State.lean ====
section
/-! SUPPORT. One lemma per field per update of State, and the named stops as updates. -/

namespace Sys2Proof.Machine

variable (s : State)

@[simp] theorem setReg_x (i : Fin 32) (v : Word) : (s.setReg i v).x = s.x.set i v := rfl
@[simp] theorem setReg_pc (i : Fin 32) (v : Word) : (s.setReg i v).pc = s.pc := rfl
@[simp] theorem setReg_rem (i : Fin 32) (v : Word) : (s.setReg i v).rem = s.rem := rfl
@[simp] theorem setReg_eq (i : Fin 32) (v : Word) : (s.setReg i v).eq = s.eq := rfl
@[simp] theorem setReg_status (i : Fin 32) (v : Word) : (s.setReg i v).status = s.status := rfl
@[simp] theorem setReg_prog (i : Fin 32) (v : Word) : (s.setReg i v).prog = s.prog := rfl

@[simp] theorem setPc_x (n : Nat) : (s.setPc n).x = s.x := rfl
@[simp] theorem setPc_pc (n : Nat) : (s.setPc n).pc = n := rfl
@[simp] theorem setPc_rem (n : Nat) : (s.setPc n).rem = s.rem := rfl
@[simp] theorem setPc_eq (n : Nat) : (s.setPc n).eq = s.eq := rfl
@[simp] theorem setPc_status (n : Nat) : (s.setPc n).status = s.status := rfl
@[simp] theorem setPc_prog (n : Nat) : (s.setPc n).prog = s.prog := rfl

@[simp] theorem setRem_x (v : Word) : (s.setRem v).x = s.x := rfl
@[simp] theorem setRem_pc (v : Word) : (s.setRem v).pc = s.pc := rfl
@[simp] theorem setRem_rem (v : Word) : (s.setRem v).rem = v := rfl
@[simp] theorem setRem_eq (v : Word) : (s.setRem v).eq = s.eq := rfl
@[simp] theorem setRem_status (v : Word) : (s.setRem v).status = s.status := rfl
@[simp] theorem setRem_prog (v : Word) : (s.setRem v).prog = s.prog := rfl

@[simp] theorem setEq_x (b : Bool) : (s.setEq b).x = s.x := rfl
@[simp] theorem setEq_pc (b : Bool) : (s.setEq b).pc = s.pc := rfl
@[simp] theorem setEq_rem (b : Bool) : (s.setEq b).rem = s.rem := rfl
@[simp] theorem setEq_eq (b : Bool) : (s.setEq b).eq = b := rfl
@[simp] theorem setEq_status (b : Bool) : (s.setEq b).status = s.status := rfl
@[simp] theorem setEq_prog (b : Bool) : (s.setEq b).prog = s.prog := rfl

@[simp] theorem setStatus_x (c : Cause) (info : Byte) : (s.setStatus c info).x = s.x := rfl
@[simp] theorem setStatus_pc (c : Cause) (info : Byte) : (s.setStatus c info).pc = s.pc := rfl
@[simp] theorem setStatus_rem (c : Cause) (info : Byte) : (s.setStatus c info).rem = s.rem := rfl
@[simp] theorem setStatus_eq (c : Cause) (info : Byte) : (s.setStatus c info).eq = s.eq := rfl
@[simp] theorem setStatus_status (c : Cause) (info : Byte) : (s.setStatus c info).status = ⟨c, info⟩ := rfl
@[simp] theorem setStatus_prog (c : Cause) (info : Byte) : (s.setStatus c info).prog = s.prog := rfl

@[simp] theorem setProg_x (m : Memory) : (s.setProg m).x = s.x := rfl
@[simp] theorem setProg_pc (m : Memory) : (s.setProg m).pc = s.pc := rfl
@[simp] theorem setProg_rem (m : Memory) : (s.setProg m).rem = s.rem := rfl
@[simp] theorem setProg_eq (m : Memory) : (s.setProg m).eq = s.eq := rfl
@[simp] theorem setProg_status (m : Memory) : (s.setProg m).status = s.status := rfl
@[simp] theorem setProg_prog (m : Memory) : (s.setProg m).prog = m := rfl

@[simp] theorem advance_eq (n : Nat) : s.advance n = s.setPc (s.pc + n) := rfl
@[simp] theorem raiseFault_eq (c : Cause) (info : Byte) : s.raiseFault c info = s.setStatus c info := rfl
@[simp] theorem haltWith_eq (c : Cause) : s.haltWith c = s.setStatus c 0#8 := rfl
@[simp] theorem resume_eq : s.resume = s.setStatus .running 0#8 := rfl
@[simp] theorem illegalOpcode_eq (b : Byte) :
    s.illegalOpcode b = (s.setPc (s.pc + 1)).setStatus .illegalOpcode b := rfl

/-- Reading a register after a write: the value written, or what was there. -/
theorem reg_setReg (i j : Fin 32) (v : Word) : (s.setReg i v).reg j = if i = j then v else s.reg j := by
  simp [State.reg, State.setReg, Vector.getElem_set, Fin.ext_iff]

@[simp] theorem reg_setReg_same (i : Fin 32) (v : Word) : (s.setReg i v).reg i = v := by simp [reg_setReg]

theorem reg_setReg_other {i j : Fin 32} (h : i ≠ j) (v : Word) : (s.setReg i v).reg j = s.reg j := by
  simp [reg_setReg, h]

/-- `x[k]` by number, after a write of register `i`. -/
theorem getElem_setReg (i : Fin 32) (v : Word) (k : Nat) (hk : k < 32) :
    (s.setReg i v).x[k] = if i.val = k then v else s.x[k] := by
  simp [State.setReg, Vector.getElem_set]

/-- A core is halted exactly when its cause is not RUNNING (R33). -/
theorem halted_iff : s.halted = true ↔ s.status.cause ≠ .running := by simp [State.halted]

theorem halted_eq_false_iff : s.halted = false ↔ s.status.cause = .running := by simp [State.halted]

end Sys2Proof.Machine
end

