-- ==== Sys2Proof/Laws/Ops.lean ====
section
/-! SUPPORT. One lemma per shared operation that says everything it can do, and what an instruction can do as a whole. -/

namespace Sys2Proof.Machine

/-! ## Register operands -/

theorem regIndex_of_lt {b : Byte} (h : b.toNat < 32) : regIndex b = some ⟨b.toNat, h⟩ := by
  simp [regIndex, h]

theorem regIndex_of_le {b : Byte} (h : 32 ≤ b.toNat) : regIndex b = none := by
  simp [regIndex, Nat.not_lt.mpr h]

theorem withReg_of_lt {b : Byte} (s : State) (k : Fin 32 → State) (h : b.toNat < 32) :
    s.withReg b k = k ⟨b.toNat, h⟩ := by
  simp [State.withReg, regIndex_of_lt h]

theorem withReg_of_le {b : Byte} (s : State) (k : Fin 32 → State) (h : 32 ≤ b.toNat) :
    s.withReg b k = s.setStatus .badRegister b := by
  simp [State.withReg, regIndex_of_le h]

/-- A register-index byte names a register and the operation goes on with it, or faults with that byte. -/
theorem withReg_cases (s : State) (b : Byte) (k : Fin 32 → State) :
    (∃ h : b.toNat < 32, s.withReg b k = k ⟨b.toNat, h⟩) ∨
    (32 ≤ b.toNat ∧ s.withReg b k = s.setStatus .badRegister b) := by
  rcases Nat.lt_or_ge b.toNat 32 with h | h
  · exact .inl ⟨h, withReg_of_lt s k h⟩
  · exact .inr ⟨h, withReg_of_le s k h⟩

/-- Three register operands: the operation goes on with both values and the destination, or faults with the first bad
byte. -/
theorem withRRR_cases (s : State) (rs1 rs2 rd : Byte) (k : Word → Word → Fin 32 → State) :
    (∃ (h1 : rs1.toNat < 32) (h2 : rs2.toNat < 32) (h3 : rd.toNat < 32),
      s.withRRR rs1 rs2 rd k = k s.x[rs1.toNat] s.x[rs2.toNat] ⟨rd.toNat, h3⟩) ∨
    (32 ≤ rs1.toNat ∧ s.withRRR rs1 rs2 rd k = s.setStatus .badRegister rs1) ∨
    (rs1.toNat < 32 ∧ 32 ≤ rs2.toNat ∧ s.withRRR rs1 rs2 rd k = s.setStatus .badRegister rs2) ∨
    (rs1.toNat < 32 ∧ rs2.toNat < 32 ∧ 32 ≤ rd.toNat ∧
      s.withRRR rs1 rs2 rd k = s.setStatus .badRegister rd) := by
  unfold State.withRRR
  rcases withReg_cases s rs1 fun i => s.withReg rs2 fun j => s.withReg rd fun d => k (s.reg i) (s.reg j) d with
    ⟨h1, e1⟩ | ⟨h1, e1⟩
  · rw [e1]
    rcases withReg_cases s rs2 fun j => s.withReg rd fun d => k (s.reg ⟨rs1.toNat, h1⟩) (s.reg j) d with
      ⟨h2, e2⟩ | ⟨h2, e2⟩
    · rw [e2]
      rcases withReg_cases s rd fun d => k (s.reg ⟨rs1.toNat, h1⟩) (s.reg ⟨rs2.toNat, h2⟩) d with
        ⟨h3, e3⟩ | ⟨h3, e3⟩
      · exact .inl ⟨h1, h2, h3, e3⟩
      · exact .inr (.inr (.inr ⟨h1, h2, h3, e3⟩))
    · exact .inr (.inr (.inl ⟨h1, h2, e2⟩))
  · exact .inr (.inl ⟨h1, e1⟩)

/-- A comparison: `eq` gets the relation of the two values and `pc` passes 4 bytes, or the first bad byte faults. -/
theorem compare_cases (s : State) (rs1 rs2 : Byte) (rel : Word → Word → Bool) :
    (∃ (h1 : rs1.toNat < 32) (h2 : rs2.toNat < 32),
      s.compare rs1 rs2 rel = (s.setEq (rel s.x[rs1.toNat] s.x[rs2.toNat])).setPc (s.pc + 4)) ∨
    (32 ≤ rs1.toNat ∧ s.compare rs1 rs2 rel = s.setStatus .badRegister rs1) ∨
    (rs1.toNat < 32 ∧ 32 ≤ rs2.toNat ∧ s.compare rs1 rs2 rel = s.setStatus .badRegister rs2) := by
  unfold State.compare
  rcases withReg_cases s rs1 fun i => s.withReg rs2 fun j =>
      (s.setEq (rel (s.reg i) (s.reg j))).advance 4 with ⟨h1, e1⟩ | ⟨h1, e1⟩
  · rw [e1]
    rcases withReg_cases s rs2 fun j => (s.setEq (rel (s.reg ⟨rs1.toNat, h1⟩) (s.reg j))).advance 4 with
      ⟨h2, e2⟩ | ⟨h2, e2⟩
    · exact .inl ⟨h1, h2, e2⟩
    · exact .inr (.inr ⟨h1, h2, e2⟩)
  · exact .inr (.inl ⟨h1, e1⟩)

/-- Three good register operands. -/
theorem withRRR_of_lt {s : State} {rs1 rs2 rd : Byte} (h1 : rs1.toNat < 32) (h2 : rs2.toNat < 32)
    (h3 : rd.toNat < 32) (k : Word → Word → Fin 32 → State) :
    s.withRRR rs1 rs2 rd k = k s.x[rs1.toNat] s.x[rs2.toNat] ⟨rd.toNat, h3⟩ := by
  simp [State.withRRR, withReg_of_lt _ _ h1, withReg_of_lt _ _ h2, withReg_of_lt _ _ h3, State.reg]

/-- A comparison of two good register operands. -/
theorem compare_of_lt {s : State} {rs1 rs2 : Byte} (h1 : rs1.toNat < 32) (h2 : rs2.toNat < 32)
    (rel : Word → Word → Bool) :
    s.compare rs1 rs2 rel = (s.setEq (rel s.x[rs1.toNat] s.x[rs2.toNat])).setPc (s.pc + 4) := by
  simp [State.compare, withReg_of_lt _ _ h1, withReg_of_lt _ _ h2, State.reg]

/-! ## Jumps and division -/

/-- A jump goes to its target, or faults when the target is below 0. -/
theorem jumpTo_cases (s : State) (t : Int) :
    (t < 0 ∧ s.jumpTo t = s.setStatus .jumpUnderflow 0#8) ∨ (0 ≤ t ∧ s.jumpTo t = s.setPc t.toNat) := by
  unfold State.jumpTo
  rcases Int.lt_or_le t 0 with h | h
  · exact .inl ⟨h, by simp [h]⟩
  · exact .inr ⟨h, by simp [Int.not_lt.mpr h]⟩

/-- A jump to a natural target goes there. -/
theorem jumpTo_natCast (s : State) {t : Int} {n : Nat} (h : (n : Int) = t) : s.jumpTo t = s.setPc n := by
  rcases jumpTo_cases s t with ⟨h', _⟩ | ⟨_, e⟩
  · omega
  · rw [e, ← h, Int.toNat_natCast]

/-- A conditional jump: taken, it is a jump to the register's value; not taken, it passes 4 bytes; the index is checked
either way. -/
theorem branch_cases (s : State) (r : Byte) (taken : Bool) :
    (∃ h : r.toNat < 32, taken = true ∧ s.branch r taken = s.jumpTo s.x[r.toNat].toInt) ∨
    (r.toNat < 32 ∧ taken = false ∧ s.branch r taken = s.setPc (s.pc + 4)) ∨
    (32 ≤ r.toNat ∧ s.branch r taken = s.setStatus .badRegister r) := by
  unfold State.branch
  rcases withReg_cases s r fun i => if taken then s.jumpTo (sval (s.reg i)) else s.advance 4 with
    ⟨h, e⟩ | ⟨h, e⟩
  · rw [e]
    cases taken with
    | true => exact .inl ⟨h, rfl, rfl⟩
    | false => exact .inr (.inl ⟨h, rfl, rfl⟩)
  · exact .inr (.inr ⟨h, e⟩)

/-- A taken conditional jump on a good register. -/
theorem branch_of_taken {s : State} {r : Byte} {taken : Bool} (h : r.toNat < 32) (ht : taken = true) :
    s.branch r taken = s.jumpTo s.x[r.toNat].toInt := by
  subst ht; exact withReg_of_lt s _ h

/-- A conditional jump that is not taken, on a good register. -/
theorem branch_of_not_taken {s : State} {r : Byte} {taken : Bool} (h : r.toNat < 32) (ht : taken = false) :
    s.branch r taken = s.setPc (s.pc + 4) := by
  subst ht; exact withReg_of_lt s _ h

theorem toInt_eq_zero_iff (b : Word) : b.toInt = 0 ↔ b = 0#32 := by
  rw [← BitVec.toInt_inj]; simp

theorem toInt_eq_intMin_iff (b : Word) : b.toInt = -2 ^ 31 ↔ b = 0x80000000#32 := by
  rw [← BitVec.toInt_inj]; exact Iff.rfl

theorem toInt_eq_neg_one_iff (b : Word) : b.toInt = -1 ↔ b = 0xFFFFFFFF#32 := by
  rw [← BitVec.toInt_inj]; exact Iff.rfl

/-- The remainder of R123 is the truncated remainder. -/
theorem remainder_eq (a d : Int) : remainder a d = Int.tmod a d := by
  have := Int.mul_tdiv_add_tmod a d
  rw [remainder, quotient, Int.mul_comm]; omega

/-- DIV on two values: a fault, or the quotient and the remainder. -/
theorem divide_cases (s : State) (a b : Word) (d : Fin 32) :
    (b = 0#32 ∧ s.divide a b d = s.setStatus .divByZero 0#8) ∨
    (a = 0x80000000#32 ∧ b = 0xFFFFFFFF#32 ∧ s.divide a b d = s.setStatus .divOverflow 0#8) ∨
    (b ≠ 0#32 ∧ ¬(a = 0x80000000#32 ∧ b = 0xFFFFFFFF#32) ∧
      s.divide a b d = ((s.setReg d (BitVec.ofInt 32 (Int.tdiv a.toInt b.toInt))).setRem
        (BitVec.ofInt 32 (Int.tmod a.toInt b.toInt))).setPc (s.pc + 4)) := by
  have hb := toInt_eq_zero_iff b
  have ha := toInt_eq_intMin_iff a
  have hb1 := toInt_eq_neg_one_iff b
  unfold State.divide sval
  by_cases h0 : b.toInt = 0
  · exact .inl ⟨hb.mp h0, by rw [if_pos h0]; rfl⟩
  · by_cases h1 : a.toInt = -2 ^ 31 ∧ b.toInt = -1
    · exact .inr (.inl ⟨ha.mp h1.1, hb1.mp h1.2, by rw [if_neg h0, if_pos h1]; rfl⟩)
    · refine .inr (.inr ⟨fun h => h0 (hb.mpr h), fun h => h1 ⟨ha.mpr h.1, hb1.mpr h.2⟩, ?_⟩)
      rw [if_neg h0, if_neg h1, remainder_eq]; rfl

/-! ## What an instruction can do -/

/-- The next states an instruction has, said once: a fault that writes STATUS alone; HLT; one register and the next
instruction; DIV's two results and the next instruction; the flag and the next instruction; another `pc`. -/
inductive Effect (i : Instr) (s : State) : State → Prop where
  | fault (c : Cause) (info : Byte) (hc : c = .badRegister ∨ c = .divByZero ∨ c = .divOverflow ∨ c = .jumpUnderflow)
      (hinfo : if c = .badRegister then i.firstBadReg = some info else info = 0#8) :
      Effect i s (s.setStatus c info)
  | halt (hi : i = .hlt) : Effect i s ((s.setPc (s.pc + 1)).setStatus .halt 0#8)
  | reg (d : Fin 32) (v : Word)
      (hi : (∃ r imm, i = .load r imm ∧ r.toNat = d) ∨ (∃ rs1 rs2 rd, i = .add rs1 rs2 rd ∧ rd.toNat = d) ∨
        (∃ rs1 rs2 rd, i = .sub rs1 rs2 rd ∧ rd.toNat = d) ∨ (∃ rs1 rs2 rd, i = .mul rs1 rs2 rd ∧ rd.toNat = d)) :
      Effect i s ((s.setReg d v).setPc (s.pc + 4))
  | div (d : Fin 32) (q r : Word) (hi : ∃ rs1 rs2 rd, i = .div rs1 rs2 rd ∧ rd.toNat = d) :
      Effect i s (((s.setReg d q).setRem r).setPc (s.pc + 4))
  | flag (b : Bool) (hi : i.op = .eq ∨ i.op = .neq ∨ i.op = .gt ∨ i.op = .lt ∨ i.op = .gtq ∨ i.op = .ltq) :
      Effect i s ((s.setEq b).setPc (s.pc + 4))
  | jump (n : Nat) (hi : i.op = .jmp ∨ i.op = .jmpf ∨ i.op = .jmpb ∨ i.op = .jeq ∨ i.op = .jneq)
      (hn : n = s.pc + 4 ∧ (i.op = .jeq ∨ i.op = .jneq) ∨ (n : Int) < 2 ^ 31 ∨ (n : Int) ≤ (s.pc : Int) + 2 + 2 ^ 31) :
      Effect i s (s.setPc n)

theorem namesRegister_of_lt {b : Byte} (h : b.toNat < 32) : namesRegister b = true := by simp [namesRegister, h]

theorem namesRegister_of_le {b : Byte} (h : 32 ≤ b.toNat) : namesRegister b = false := by
  simp [namesRegister, h]

/-- Well-formed is: no bad register-index byte. -/
theorem firstBadReg_eq_none_iff {i : Instr} : i.firstBadReg = none ↔ i.wellFormed = true := by
  simp [Instr.firstBadReg, Instr.wellFormed, List.find?_eq_none, List.all_eq_true]

theorem le_of_firstBadReg {i : Instr} {b : Byte} (h : i.firstBadReg = some b) : 32 ≤ b.toNat := by
  have := List.find?_some h
  simpa [namesRegister] using this

/-- The jumps' targets stay in the bounds of Effect. -/
theorem effect_jumpTo {i : Instr} {s : State} {t : Int}
    (hi : i.op = .jmp ∨ i.op = .jmpf ∨ i.op = .jmpb ∨ i.op = .jeq ∨ i.op = .jneq)
    (ht : t < 2 ^ 31 ∨ t ≤ (s.pc : Int) + 2 + 2 ^ 31) : Effect i s (s.jumpTo t) := by
  rcases jumpTo_cases s t with ⟨_, e⟩ | ⟨h, e⟩
  · rw [e]; exact .fault _ _ (by simp) (by simp)
  · rw [e]
    refine .jump _ hi (.inr ?_)
    rw [Int.toNat_of_nonneg h]; exact ht

theorem effect_badRegister {i : Instr} {s : State} {b : Byte} (h : i.firstBadReg = some b) :
    Effect i s (s.setStatus .badRegister b) := .fault _ _ (by simp) (by simp [h])

/-- A three-register instruction: what its meaning does with good registers, or the first bad byte. -/
theorem effect_withRRR {i : Instr} {s : State} {rs1 rs2 rd : Byte} {k : Word → Word → Fin 32 → State}
    (hi : i.regBytes = [rs1, rs2, rd])
    (hk : ∀ a b (h : rd.toNat < 32), Effect i s (k a b ⟨rd.toNat, h⟩)) : Effect i s (s.withRRR rs1 rs2 rd k) := by
  rcases withRRR_cases s rs1 rs2 rd k with ⟨_, _, h3, e⟩ | ⟨h, e⟩ | ⟨h1, h2, e⟩ | ⟨h1, h2, h3, e⟩ <;> rw [e]
  · exact hk _ _ h3
  · exact effect_badRegister (by simp [Instr.firstBadReg, hi, namesRegister_of_le h])
  · exact effect_badRegister (by simp [Instr.firstBadReg, hi, namesRegister_of_lt h1, namesRegister_of_le h2])
  · exact effect_badRegister
      (by simp [Instr.firstBadReg, hi, namesRegister_of_lt h1, namesRegister_of_lt h2, namesRegister_of_le h3])

theorem effect_compare {i : Instr} {s : State} {rs1 rs2 : Byte} {rel : Word → Word → Bool}
    (hr : i.regBytes = [rs1, rs2])
    (hi : i.op = .eq ∨ i.op = .neq ∨ i.op = .gt ∨ i.op = .lt ∨ i.op = .gtq ∨ i.op = .ltq) :
    Effect i s (s.compare rs1 rs2 rel) := by
  rcases compare_cases s rs1 rs2 rel with ⟨_, _, e⟩ | ⟨h, e⟩ | ⟨h1, h2, e⟩ <;> rw [e]
  · exact .flag _ hi
  · exact effect_badRegister (by simp [Instr.firstBadReg, hr, namesRegister_of_le h])
  · exact effect_badRegister (by simp [Instr.firstBadReg, hr, namesRegister_of_lt h1, namesRegister_of_le h2])

theorem effect_withReg {i : Instr} {s : State} {r : Byte} {k : Fin 32 → State} (hi : i.regBytes = [r])
    (hk : ∀ h : r.toNat < 32, Effect i s (k ⟨r.toNat, h⟩)) : Effect i s (s.withReg r k) := by
  rcases withReg_cases s r k with ⟨h, e⟩ | ⟨h, e⟩ <;> rw [e]
  · exact hk h
  · exact effect_badRegister (by simp [Instr.firstBadReg, hi, namesRegister_of_le h])

theorem effect_branch {i : Instr} {s : State} {r : Byte} {taken : Bool} (hr : i.regBytes = [r])
    (hi : i.op = .jeq ∨ i.op = .jneq) : Effect i s (s.branch r taken) := by
  have hi' : i.op = .jmp ∨ i.op = .jmpf ∨ i.op = .jmpb ∨ i.op = .jeq ∨ i.op = .jneq := by
    rcases hi with h | h <;> simp [h]
  rcases branch_cases s r taken with ⟨_, _, e⟩ | ⟨_, _, e⟩ | ⟨h, e⟩ <;> rw [e]
  · exact effect_jumpTo hi' (.inl (BitVec.toInt_lt))
  · exact .jump _ hi' (.inl ⟨rfl, hi⟩)
  · exact effect_badRegister (by simp [Instr.firstBadReg, hr, namesRegister_of_le h])

theorem effect_divide {i : Instr} {s : State} {a b : Word} {d : Fin 32}
    (hi : ∃ rs1 rs2 rd, i = .div rs1 rs2 rd ∧ rd.toNat = d) : Effect i s (s.divide a b d) := by
  rcases divide_cases s a b d with ⟨_, e⟩ | ⟨_, _, e⟩ | ⟨_, _, e⟩ <;> rw [e]
  · exact .fault _ _ (by simp) (by simp)
  · exact .fault _ _ (by simp) (by simp)
  · exact .div d _ _ hi

/-- Every instruction answers a next state, and that state is one of Effect's. -/
theorem exec_effect (i : Instr) (s : State) : ∃ t, exec i s = .next t ∧ Effect i s t := by
  cases i with
  | load r imm =>
    exact ⟨_, rfl, effect_withReg rfl fun h => .reg _ _ (.inl ⟨r, imm, rfl, rfl⟩)⟩
  | add rs1 rs2 rd =>
    exact ⟨_, rfl, effect_withRRR rfl fun _ _ h => .reg _ _ (.inr (.inl ⟨rs1, rs2, rd, rfl, rfl⟩))⟩
  | sub rs1 rs2 rd =>
    exact ⟨_, rfl, effect_withRRR rfl fun _ _ h => .reg _ _ (.inr (.inr (.inl ⟨rs1, rs2, rd, rfl, rfl⟩)))⟩
  | mul rs1 rs2 rd =>
    exact ⟨_, rfl, effect_withRRR rfl fun _ _ h => .reg _ _ (.inr (.inr (.inr ⟨rs1, rs2, rd, rfl, rfl⟩)))⟩
  | div rs1 rs2 rd => exact ⟨_, rfl, effect_withRRR rfl fun _ _ h => effect_divide ⟨rs1, rs2, rd, rfl, rfl⟩⟩
  | hlt => exact ⟨_, rfl, .halt rfl⟩
  | jmp r => exact ⟨_, rfl, effect_withReg rfl fun h => effect_jumpTo (by simp [Instr.op]) (.inl BitVec.toInt_lt)⟩
  | jmpf r =>
    refine ⟨_, rfl, effect_withReg rfl fun h => effect_jumpTo (by simp [Instr.op]) (.inr ?_)⟩
    have := BitVec.toInt_lt (x := s.reg ⟨r.toNat, h⟩)
    simp only [State.nextAddress, sval]; omega
  | jmpb r =>
    refine ⟨_, rfl, effect_withReg rfl fun h => effect_jumpTo (by simp [Instr.op]) (.inr ?_)⟩
    have := BitVec.le_toInt (x := s.reg ⟨r.toNat, h⟩)
    simp only [State.nextAddress, sval]; omega
  | eq rs1 rs2 f => exact ⟨_, rfl, effect_compare rfl (by simp [Instr.op])⟩
  | neq rs1 rs2 f => exact ⟨_, rfl, effect_compare rfl (by simp [Instr.op])⟩
  | gt rs1 rs2 f => exact ⟨_, rfl, effect_compare rfl (by simp [Instr.op])⟩
  | lt rs1 rs2 f => exact ⟨_, rfl, effect_compare rfl (by simp [Instr.op])⟩
  | gtq rs1 rs2 f => exact ⟨_, rfl, effect_compare rfl (by simp [Instr.op])⟩
  | ltq rs1 rs2 f => exact ⟨_, rfl, effect_compare rfl (by simp [Instr.op])⟩
  | jeq r f => exact ⟨_, rfl, effect_branch rfl (by simp [Instr.op])⟩
  | jneq r f => exact ⟨_, rfl, effect_branch rfl (by simp [Instr.op])⟩

/-- The inversion of `exec`: what a next state of an instruction is. -/
theorem effect_of_exec {i : Instr} {s t : State} (h : exec i s = .next t) : Effect i s t := by
  obtain ⟨u, hu, e⟩ := exec_effect i s
  rw [hu] at h
  cases h
  exact e

end Sys2Proof.Machine
end

