-- ==== Sys2Proof/Laws/PerInstr.lean ====
section
/-! SUPPORT. Facts about every instruction, one lemma per constructor: the bytes of an instruction in the form the flag selects
are as many as R78 says. -/

namespace Sys2Proof.Laws.EncodeLength

/-- An instruction in the form the flag selects has the length of R78, under every OPCODE_MAP. -/
def Statement (i : Instr) : Prop :=
  ∀ (m : OpcodeMap) (eq : Bool), i.fitsFlag eq = true → (encode m i).length = i.op.length eq

theorem load (r : Byte) (imm : Half) : Statement (.load r imm) :=
  fun m _ h => encode_length m h

theorem add (rs1 rs2 rd : Byte) : Statement (.add rs1 rs2 rd) :=
  fun m _ h => encode_length m h

theorem sub (rs1 rs2 rd : Byte) : Statement (.sub rs1 rs2 rd) :=
  fun m _ h => encode_length m h

theorem mul (rs1 rs2 rd : Byte) : Statement (.mul rs1 rs2 rd) :=
  fun m _ h => encode_length m h

theorem div (rs1 rs2 rd : Byte) : Statement (.div rs1 rs2 rd) :=
  fun m _ h => encode_length m h

theorem hlt : Statement .hlt :=
  fun m _ h => encode_length m h

theorem jmp (r : Byte) : Statement (.jmp r) :=
  fun m _ h => encode_length m h

theorem jmpf (r : Byte) : Statement (.jmpf r) :=
  fun m _ h => encode_length m h

theorem jmpb (r : Byte) : Statement (.jmpb r) :=
  fun m _ h => encode_length m h

theorem eq (rs1 rs2 f : Byte) : Statement (.eq rs1 rs2 f) :=
  fun m _ h => encode_length m h

theorem neq (rs1 rs2 f : Byte) : Statement (.neq rs1 rs2 f) :=
  fun m _ h => encode_length m h

theorem gt (rs1 rs2 f : Byte) : Statement (.gt rs1 rs2 f) :=
  fun m _ h => encode_length m h

theorem lt (rs1 rs2 f : Byte) : Statement (.lt rs1 rs2 f) :=
  fun m _ h => encode_length m h

theorem gtq (rs1 rs2 f : Byte) : Statement (.gtq rs1 rs2 f) :=
  fun m _ h => encode_length m h

theorem ltq (rs1 rs2 f : Byte) : Statement (.ltq rs1 rs2 f) :=
  fun m _ h => encode_length m h

theorem jeq (r : Byte) (f : Option Half) : Statement (.jeq r f) :=
  fun m _ h => encode_length m h

theorem jneq (r : Byte) (f : Option Half) : Statement (.jneq r f) :=
  fun m _ h => encode_length m h

end Sys2Proof.Laws.EncodeLength
end

