-- ==== Sys2Proof/Laws/Step.lean ====
section
/-! SUPPORT. What a fetch and a step can do, said once. -/

namespace Sys2Proof.Machine

/-- The fetch never reads at or beyond L (R53): the window answers, with the bytes of the program. -/
theorem window_eq (s : State) :
    s.window = .ok ((List.range' s.pc s.windowSize).map (lookupCell s.prog.cells)) :=
  readBytes_of_le (by unfold State.windowSize; omega)

theorem window_length {s : State} {bs : List Byte} (h : s.window = .ok bs) : bs.length = s.windowSize :=
  readBytes_length h

/-- The window is empty exactly at the end of the program. -/
theorem window_nil_iff {s : State} : s.window = .ok [] ↔ s.prog.len ≤ s.pc := by
  constructor
  · intro h
    have := window_length h
    simp [State.windowSize] at this
    omega
  · intro h
    have : s.windowSize = 0 := by unfold State.windowSize; omega
    rw [window_eq, this]; rfl

/-- The first byte of the window is the byte at `pc`. -/
theorem window_head {s : State} {b : Byte} {bs : List Byte} (h : s.window = .ok (b :: bs)) :
    s.prog.read s.pc = .ok b := by
  have hl := window_length h
  unfold State.window at h
  obtain ⟨n, hn⟩ : ∃ n, s.windowSize = n + 1 := ⟨bs.length, by simpa using hl.symm⟩
  rw [hn] at h
  exact (readBytes_succ_eq_ok_iff.mp h).1

/-- A window that starts with a byte, where there is one at `pc`. -/
theorem window_of_read {s : State} {b : Byte} (h : s.prog.read s.pc = .ok b) :
    ∃ bs, s.window = .ok (b :: bs) ∧ bs.length + 1 = s.windowSize := by
  have hlt := lt_len_of_read h
  cases hw : s.window with
  | error f => rw [window_eq] at hw; cases hw
  | ok bs =>
    cases bs with
    | nil => have := window_nil_iff.mp hw; omega
    | cons c bs =>
      have h2 := window_head hw
      rw [h] at h2
      cases h2
      exact ⟨bs, rfl, by simpa using window_length hw⟩

/-- A string of at most 4 bytes that the program holds at `pc` is the head of the window. -/
theorem window_of_readBytes {s : State} {bs : List Byte} (h : s.prog.readBytes s.pc bs.length = .ok bs)
    (h4 : bs.length ≤ 4) : ∃ rest, s.window = .ok (bs ++ rest) := by
  rcases readBytes_eq_ok_iff.mp h with ⟨hle, hbs⟩
  rcases hle with hle | h0
  · have hsz : s.windowSize = bs.length + (s.windowSize - bs.length) := by
      unfold State.windowSize; omega
    refine ⟨(List.range' (s.pc + bs.length) (s.windowSize - bs.length)).map (lookupCell s.prog.cells), ?_⟩
    rw [window_eq]
    conv_lhs => rw [hsz]
    rw [← List.range'_append_1, List.map_append, ← hbs]
  · have : bs = [] := List.length_eq_zero_iff.mp h0
    subst this
    exact ⟨_, window_eq s⟩

/-- Everything a step can do (R90, R214): already halted, END, ILLEGAL_OPCODE, TRUNCATED, or the meaning of the decoded
instruction. -/
theorem stepWith_cases (m : OpcodeMap) (s : State) :
    (s.status.cause ≠ .running ∧ stepWith m s = .next s) ∨
    (s.status.cause = .running ∧ s.prog.len ≤ s.pc ∧ stepWith m s = .next (s.setStatus .endOfProgram 0#8)) ∨
    (∃ b, s.status.cause = .running ∧ s.prog.read s.pc = .ok b ∧ decodeOp m b = none ∧
      stepWith m s = .next ((s.setPc (s.pc + 1)).setStatus .illegalOpcode b)) ∨
    (∃ b op, s.status.cause = .running ∧ s.prog.read s.pc = .ok b ∧ decodeOp m b = some op ∧
      s.prog.len < s.pc + op.length s.eq ∧ stepWith m s = .next (s.setStatus .truncated 0#8)) ∨
    (∃ b op bs i rest, s.status.cause = .running ∧ s.prog.read s.pc = .ok b ∧ decodeOp m b = some op ∧
      s.pc + op.length s.eq ≤ s.prog.len ∧ s.window = .ok bs ∧ decode m s.eq bs = .instr i rest ∧
      stepWith m s = exec i s) := by
  by_cases hh : s.status.cause = .running
  · have hr : s.halted = false := (halted_eq_false_iff s).mpr hh
    have hw := window_eq s
    generalize hbs : (List.range' s.pc s.windowSize).map (lookupCell s.prog.cells) = bs at hw
    have hstep : stepWith m s = match s.afterDecode (decode m s.eq bs) with
        | .stopped t => .next t
        | .run i => exec i s := by
      simp only [stepWith, State.fetch, hr, hw]
      cases s.afterDecode (decode m s.eq bs) <;> rfl
    have hl := window_length hw
    unfold State.windowSize at hl
    right
    rcases decode_cases m s.eq bs with ⟨h0, hd⟩ | ⟨b, rest, h0, hop, hd⟩ | ⟨b, rest, op, h0, hop, hlen, hd⟩ |
      ⟨b, rest, op, i, after, h0, hop, hlen, _, hd⟩
    · subst h0
      exact .inl ⟨hh, window_nil_iff.mp hw, by rw [hstep, hd]; rfl⟩
    · subst h0
      exact .inr (.inl ⟨b, hh, window_head hw, hop, by rw [hstep, hd]; rfl⟩)
    · have h4 := length_le_four op s.eq
      subst h0
      exact .inr (.inr (.inl ⟨b, op, hh, window_head hw, hop, by omega, by rw [hstep, hd]; rfl⟩))
    · have h1 := length_pos op s.eq
      have hd' := hd
      rw [h0] at hw
      exact .inr (.inr (.inr ⟨b, op, bs, i, after, hh, window_head hw, hop, by omega, by rw [hw, h0], hd,
        by rw [hstep, hd]; rfl⟩))
  · exact .inl ⟨hh, by
      have : s.halted = true := (halted_iff s).mpr hh
      simp [stepWith, State.fetch, this]⟩

/-- What the host sees of a step: the next state, and whether it is halted. -/
theorem hostStep_of_step {s t : State} (h : step s = .next t) : hostStep s = .next (t, t.halted) := by
  simp [hostStep, h]

/-- One step of a run of the host's interface. -/
theorem core_run_succ {k : Nat} {s t : State} (h : step s = .next t) :
    Sys2Proof.core.run (k + 1) s = Sys2Proof.core.run k t := by
  have h' : Sys2Proof.core.step s = .next t := h
  simp only [Host.Core.run, h']

/-- Storing an instruction's bytes at `pc` keeps the program store canonical. -/
theorem withFetchWord_wf (s : State) (nbits w : Nat) (h : s.prog.wf = true) :
    (s.withFetchWord nbits w).prog.wf = true := place_wf _ _ h

end Sys2Proof.Machine
end

