-- ==== Sys2Proof/Tests/Slice0.lean ====
section
/-! SUPPORT. Tests on fixed values and, for every statement with hypotheses, a witness that meets them. Expected values come from
spec/95_test_vectors.md (E<n>, V<n>) or from the rule named. -/

namespace Sys2Proof.Tests

open Sys2Proof.Machine

/-! ## WellFormed: an ill-formed term for each check -/

theorem test_wf_load : (Instr.load 0x20 1).wellFormed = false := by decide
theorem test_wf_rs1 : (Instr.add 0x20 0 0).wellFormed = false := by decide
theorem test_wf_rs2 : (Instr.sub 0 0xFF 0).wellFormed = false := by decide
theorem test_wf_rd : (Instr.div 0 0 0x20).wellFormed = false := by decide
theorem test_wf_mul_rd : (Instr.mul 0 0 0x80).wellFormed = false := by decide
theorem test_wf_jumps : (Instr.jmp 0x20).wellFormed = false ∧ (Instr.jmpf 0x20).wellFormed = false ∧
    (Instr.jmpb 0x20).wellFormed = false := by decide
theorem test_wf_compare : (Instr.eq 0x20 0 0).wellFormed = false ∧ (Instr.neq 0 0x20 0).wellFormed = false ∧
    (Instr.gt 0x20 0 0).wellFormed = false ∧ (Instr.lt 0 0x20 0).wellFormed = false ∧
    (Instr.gtq 0x20 0 0).wellFormed = false ∧ (Instr.ltq 0 0x20 0).wellFormed = false := by decide
theorem test_wf_branch : (Instr.jeq 0x20 none).wellFormed = false ∧ (Instr.jneq 0x20 (some 0)).wellFormed = false := by
  decide
theorem test_wf_filler_not_checked : (Instr.ltq 31 31 0xFF).wellFormed = true ∧ Instr.hlt.wellFormed = true := by decide
theorem test_fits : (Instr.jeq 0 none).fitsFlag false = false ∧ (Instr.jneq 0 none).fitsFlag true = false ∧
    (Instr.jeq 0 (some 0)).fitsFlag true = false ∧ (Instr.jneq 0 (some 0)).fitsFlag false = false := by decide

/-! ## Decoding: words written out from the encoding tables of R72 and R76 -/

theorem test_decode_load : decode Config.opcodeMap false [0b00000000#8, 0b00011111#8, 0b00010010#8, 0b00110100#8] =
    .instr (.load 31 0x1234) [] := by decide
theorem test_decode_add : decode Config.opcodeMap false [0b00000001#8, 0b00000000#8, 0b00000001#8, 0b00000010#8] =
    .instr (.add 0 1 2) [] := by decide
theorem test_decode_sub : decode Config.opcodeMap false [0b00000010#8, 0b00000001#8, 0b00000000#8, 0b00000001#8] =
    .instr (.sub 1 0 1) [] := by decide
theorem test_decode_mul : decode Config.opcodeMap false [0b00000011#8, 0b00000010#8, 0b00000000#8, 0b00001001#8] =
    .instr (.mul 2 0 9) [] := by decide
theorem test_decode_div : decode Config.opcodeMap false [0b00000100#8, 0b00000000#8, 0b00000100#8, 0b00000101#8] =
    .instr (.div 0 4 5) [] := by decide
theorem test_decode_hlt : decode Config.opcodeMap false [0b00000101#8, 0x20#8] = .instr .hlt [0x20#8] := by decide
theorem test_decode_jmp : decode Config.opcodeMap false [0b00000110#8, 0b00000011#8] = .instr (.jmp 3) [] := by decide
theorem test_decode_jmpf : decode Config.opcodeMap false [0b00000111#8, 0b00000110#8] = .instr (.jmpf 6) [] := by decide
theorem test_decode_jmpb : decode Config.opcodeMap false [0b00001000#8, 0b00000010#8] = .instr (.jmpb 2) [] := by decide
theorem test_decode_eq : decode Config.opcodeMap false [0b00001001#8, 0#8, 1#8, 0x77#8] = .instr (.eq 0 1 0x77) [] := by
  decide
theorem test_decode_neq : decode Config.opcodeMap true [0b00001010#8, 2#8, 3#8, 4#8] = .instr (.neq 2 3 4) [] := by decide
theorem test_decode_gt : decode Config.opcodeMap true [0b00001011#8, 2#8, 3#8, 4#8] = .instr (.gt 2 3 4) [] := by decide
theorem test_decode_lt : decode Config.opcodeMap true [0b00001100#8, 2#8, 3#8, 4#8] = .instr (.lt 2 3 4) [] := by decide
theorem test_decode_gtq : decode Config.opcodeMap true [0b00001101#8, 2#8, 3#8, 4#8] = .instr (.gtq 2 3 4) [] := by decide
theorem test_decode_ltq : decode Config.opcodeMap true [0b00001110#8, 2#8, 3#8, 4#8] = .instr (.ltq 2 3 4) [] := by decide
theorem test_decode_jeq : decode Config.opcodeMap false [0b00001111#8, 3#8, 0xAA#8, 0xBB#8] =
      .instr (.jeq 3 (some 0xAABB)) [] ∧
    decode Config.opcodeMap true [0b00001111#8, 3#8] = .instr (.jeq 3 none) [] := by decide
theorem test_decode_jneq : decode Config.opcodeMap true [0b00010000#8, 3#8, 0xAA#8, 0xBB#8] =
      .instr (.jneq 3 (some 0xAABB)) [] ∧
    decode Config.opcodeMap false [0b00010000#8, 3#8] = .instr (.jneq 3 none) [] := by decide
theorem test_decode_rejects : decode Config.opcodeMap false [0x11#8, 0#8, 0#8, 0#8] = .illegal 0x11 ∧
    decode Config.opcodeMap false [0x01#8, 0x20#8] = .truncated ∧
    decode Config.opcodeMap false [0x0F#8, 0#8] = .truncated ∧ decode Config.opcodeMap true [] = .noByte := by decide
theorem test_table_word : decodeTableWord 32 0xF4010000 = some (.load 0 500) ∧ decodeTableWord 8 0x05 = some .hlt ∧
    decodeTableWord 16 0x0607 = some (.jmpf 6) ∧ decodeTableWord 8 0x11 = none := by decide
theorem test_encode_load : encode Config.opcodeMap (.load 0 500) = [0x00#8, 0x00#8, 0x01#8, 0xF4#8] := by decide

/-! ## One step, from the vectors of the spec -/

/-- Reset, then `load` of a program. -/
def boot (bs : List Byte) : State := State.reset.load bs

/-- Reset, `load`, and x[0], x[1] poked. -/
def boot2 (bs : List Byte) (a b : Word) : State := ((boot bs).setReg 0 a).setReg 1 b

/-- A view of the state after one step. -/
def afterStep {α : Type} (s : State) (f : State → α) : Option α :=
  match step s with
  | .next t => some (f t)
  | .fault _ => none
  | .refused _ => none

theorem test_load_zero_extends : afterStep (boot [0x00#8, 0x00#8, 0xFF#8, 0xFF#8]) (fun t => (t.x[0], t.pc)) =
    some (0x0000FFFF#32, 4) := by decide -- V20
theorem test_load_big_endian : afterStep (boot [0x00#8, 0x1F#8, 0x12#8, 0x34#8]) (fun t => (t.x[31], t.pc)) =
    some (0x1234#32, 4) := by decide -- V22, V25
theorem test_add_wraps : afterStep (boot2 [0x01#8, 0#8, 1#8, 2#8] 0x7FFFFFFF 1) (fun t => (t.x[2], t.pc)) =
    some (0x80000000#32, 4) := by decide -- V30
theorem test_add_same_register : afterStep (boot2 [0x01#8, 0#8, 0#8, 0#8] 21 0) (fun t => t.x[0]) = some 42#32 := by
  decide -- V33
theorem test_sub_order : afterStep (boot2 [0x02#8, 0#8, 1#8, 2#8] 0 1) (fun t => t.x[2]) = some 0xFFFFFFFF#32 := by
  decide -- V34
theorem test_sub_wraps : afterStep (boot2 [0x02#8, 0#8, 1#8, 2#8] 0x80000000 1) (fun t => t.x[2]) =
    some 0x7FFFFFFF#32 := by decide -- V35
theorem test_mul_low_half : afterStep (boot2 [0x03#8, 0#8, 1#8, 2#8] 65535 65535) (fun t => t.x[2]) =
    some 0xFFFE0001#32 := by decide -- V37
theorem test_mul_signed : afterStep (boot2 [0x03#8, 0#8, 1#8, 2#8] 3 0xFFFFFFFC) (fun t => t.x[2]) =
    some 0xFFFFFFF4#32 := by decide -- V39
theorem test_div_negative : afterStep (boot2 [0x04#8, 0#8, 1#8, 2#8] 0xFFFFFFF9 2) (fun t => (t.x[2], t.rem)) =
    some (0xFFFFFFFD#32, 0xFFFFFFFF#32) := by decide -- V42
theorem test_div_overflow : afterStep (boot2 [0x04#8, 0#8, 1#8, 2#8] 0x80000000 0xFFFFFFFF)
    (fun t => (t.pc, t.status)) = some (0, ⟨.divOverflow, 0⟩) := by decide -- V48
theorem test_hlt : afterStep (boot [0x05#8, 0x20#8, 0x20#8]) (fun t => (t.pc, t.status)) = some (1, ⟨.halt, 0⟩) := by
  decide -- V2
theorem test_jmp_beyond_end : afterStep (boot2 [0x06#8, 0#8] 1000 0) (fun t => (t.pc, t.status.cause)) =
    some (1000, .running) := by decide -- V72
theorem test_jmp_negative : afterStep (boot2 [0x06#8, 0#8] 0xFFFFFFFF 0) (fun t => (t.pc, t.status.cause)) =
    some (0, .jumpUnderflow) := by decide -- V71
theorem test_jmpf : afterStep (boot2 [0x07#8, 0#8] 10 0) (fun t => t.pc) = some 12 := by decide -- E7, V74
theorem test_jmpf_no_wrap : afterStep (boot2 [0x07#8, 0#8] 0x7FFFFFFF 0) (fun t => t.pc) = some 2147483649 := by
  decide -- V78
theorem test_jmpb_underflow : afterStep (boot2 [0x08#8, 0#8] 3 0) (fun t => (t.pc, t.status.cause)) =
    some (0, .jumpUnderflow) := by decide -- V80
theorem test_jmpb_intmin : afterStep (boot2 [0x08#8, 0#8] 0x80000000 0) (fun t => t.pc) = some 2147483650 := by
  decide -- V83

/-- The flag after one comparison of x[0] with x[1]. -/
def flagOf (op : Byte) (a b : Word) : Option Bool := afterStep (boot2 [op, 0#8, 1#8, 0#8] a b) (fun t => t.eq)

theorem test_eq : flagOf 0x09 5 5 = some true ∧ flagOf 0x09 3 5 = some false := by decide -- E8
theorem test_neq : flagOf 0x0A 5 5 = some false ∧ flagOf 0x0A 0xFFFFFFFF 1 = some true := by decide -- E8
theorem test_gt : flagOf 0x0B 1 0xFFFFFFFF = some true ∧ flagOf 0x0B 5 5 = some false := by decide -- E8
theorem test_lt : flagOf 0x0C 0x80000000 0x7FFFFFFF = some true ∧ flagOf 0x0C 5 3 = some false := by decide -- E8
theorem test_gtq : flagOf 0x0D 5 5 = some true ∧ flagOf 0x0D 0xFFFFFFFF 1 = some false := by decide -- E8
theorem test_ltq : flagOf 0x0E 5 5 = some true ∧ flagOf 0x0E 1 0xFFFFFFFF = some false := by decide -- E8

theorem test_jeq_both_paths : afterStep ((boot2 [0x0F#8, 0#8, 0xAA#8, 0xBB#8] 9 0).setEq true) (fun t => t.pc) = some 9 ∧
    afterStep (boot2 [0x0F#8, 0#8, 0xAA#8, 0xBB#8] 9 0) (fun t => t.pc) = some 4 := by decide -- V100, V101
theorem test_jeq_short : afterStep ((boot2 [0x0F#8, 0#8] 9 0).setEq true) (fun t => t.pc) = some 9 ∧
    afterStep (boot2 [0x0F#8, 0#8] 9 0) (fun t => (t.pc, t.status.cause)) = some (0, .truncated) := by
  decide -- V104, V105
theorem test_jneq_both_paths : afterStep (boot2 [0x10#8, 0#8, 0xAA#8, 0xBB#8] 9 0) (fun t => t.pc) = some 9 ∧
    afterStep ((boot2 [0x10#8, 0#8, 0xAA#8, 0xBB#8] 9 0).setEq true) (fun t => t.pc) = some 4 := by
  decide -- V102, V103
theorem test_jneq_bad_register : afterStep (boot [0x10#8, 0x21#8]) (fun t => (t.pc, t.status)) =
    some (0, ⟨.badRegister, 0x21⟩) := by decide -- V110
theorem test_illegal : afterStep (boot [0xC8#8]) (fun t => (t.pc, t.status)) = some (1, ⟨.illegalOpcode, 0xC8⟩) := by
  decide -- E2
theorem test_truncated_before_bad_register : afterStep (boot [0x01#8, 0x20#8]) (fun t => (t.pc, t.status)) =
    some (0, ⟨.truncated, 0⟩) := by decide -- V4
theorem test_first_bad_register : afterStep (boot [0x01#8, 0x25#8, 0x30#8, 0#8]) (fun t => t.status) =
    some ⟨.badRegister, 0x25⟩ := by decide -- V5
theorem test_bad_register_before_div : afterStep (boot2 [0x04#8, 0#8, 1#8, 0x20#8] 15 0) (fun t => t.status) =
    some ⟨.badRegister, 0x20⟩ := by decide -- V7
theorem test_reload_keeps_pc : afterStep ((((boot [0x05#8]).setPc 1).setStatus .halt 0).load
    [0x00#8, 0x00#8, 0x00#8, 0x01#8, 0x05#8]) (fun t => (t.x[0], t.pc)) = some (261#32, 5) := by decide -- V121
theorem test_status_word : (⟨.badRegister, 0x25⟩ : Status).word = 0x2505#16 := by decide -- R32
theorem test_load_canonical : (boot [0x05#8, 0#8, 7#8]).prog = ⟨[(0, 5#8), (2, 7#8)], 3⟩ := by decide -- log 2
theorem test_place_removes_zero : (Memory.place ⟨[(0, 5#8), (2, 7#8)], 3⟩ 2 [0#8, 9#8]) = ⟨[(0, 5#8), (3, 9#8)], 4⟩ := by
  decide -- log 2
theorem test_fetch_word : afterStep (State.reset.withFetchWord 32 0x34121F00) (fun t => (t.x[31], t.pc)) =
    some (0x1234#32, 4) := by decide -- log 6
theorem test_wf_rejects : Memory.wf ⟨[(2, 7#8), (0, 5#8)], 3⟩ = false ∧ Memory.wf ⟨[(0, 0#8)], 3⟩ = false ∧
    Memory.wf ⟨[(3, 1#8)], 3⟩ = false := by decide -- log 2

/-! ## Witnesses: concrete states and operands that meet the hypotheses of each statement, at the boundaries of its clauses -/

theorem witness_DecodeOfEncodeIsIdentity : (Instr.jeq 31 none).fitsFlag true = true ∧
    (Instr.jeq 31 (some 0xFFFF)).fitsFlag false = true ∧ (Instr.jneq 0 none).fitsFlag false = true ∧
    (Instr.jneq 0 (some 0)).fitsFlag true = true ∧ (Instr.load 0xFF 0xFFFF).fitsFlag true = true := by decide
theorem witness_EncodeOfDecodeIsIdentity :
    decode Config.opcodeMap true [0x10#8, 0xFF#8, 1#8, 2#8, 3#8] = .instr (.jneq 0xFF (some 0x0102)) [3#8] := by decide
theorem witness_InstructionLengths : decode Config.opcodeMap true [0x0F#8, 0#8] = .instr (.jeq 0 none) [] ∧
    (boot [0x11#8]).status.cause = .running ∧ (boot [0x11#8]).prog.read (boot [0x11#8]).pc = .ok 0x11 ∧
    decodeOp Config.opcodeMap 0x11 = none := by decide
theorem witness_OpcodeByteSelectsInstruction : decodeOp Config.opcodeMap 0xFF = none ∧
    decode Config.opcodeMap false [0x06#8, 0xFF#8] = .instr (.jmp 0xFF) [] := by decide
theorem witness_StepRunsDecodedInstruction : (boot [0x06#8, 0#8]).status.cause = .running ∧
    (boot [0x06#8, 0#8]).window = .ok [0x06#8, 0#8] ∧
    decode Config.opcodeMap (boot [0x06#8, 0#8]).eq [0x06#8, 0#8] = .instr (.jmp 0) [] := by decide
theorem witness_StepRunsInstructionInProgram : (boot [0x10#8, 31#8]).status.cause = .running ∧
    (boot [0x10#8, 31#8]).HoldsAtPc Config.opcodeMap (.jneq 31 none) := by decide
theorem witness_HaltedStepChangesNothing : ((boot [0x05#8]).setStatus .halt 0).status.cause ≠ .running := by decide
theorem witness_EndOfProgramStops_at_end : State.reset.status.cause = .running ∧
    State.reset.prog.len ≤ State.reset.pc := by decide
theorem witness_EndOfProgramStops_next : step (boot2 [0x07#8, 0#8] 10 0) =
      .next { boot2 [0x07#8, 0#8] 10 0 with pc := 12 } ∧
    (boot2 [0x07#8, 0#8] 10 0).status.cause = .running ∧ (boot2 [0x07#8, 0#8] 10 0).prog.len ≤ 12 :=
  ⟨rfl, by decide, by decide⟩
theorem witness_IllegalOpcodeStops : (boot [0x11#8]).status.cause = .running ∧
    (boot [0x11#8]).prog.read 0 = .ok 0x11 ∧ decodeOp Config.opcodeMap 0x11 = none ∧
    (boot [0xFF#8]).prog.read 0 = .ok 0xFF ∧ decodeOp Config.opcodeMap 0xFF = none := by decide
theorem witness_TruncatedInstructionStops : (boot [0x0F#8, 0x20#8, 0#8]).status.cause = .running ∧
    (boot [0x0F#8, 0x20#8, 0#8]).prog.read 0 = .ok 0x0F ∧ decodeOp Config.opcodeMap 0x0F = some .jeq ∧
    (boot [0x0F#8, 0x20#8, 0#8]).prog.len < 0 + Op.length .jeq false ∧
    (boot [0x06#8]).prog.len < 0 + Op.length .jmp false := by decide
theorem witness_BadRegisterStops : (Instr.add 31 0x20 0xFF).firstBadReg = some 0x20 ∧
    (Instr.jeq 0xFF (some 0)).firstBadReg = some 0xFF ∧
    (boot [0x0F#8, 0xFF#8, 0#8, 0#8]).status.cause = .running ∧
    (boot [0x0F#8, 0xFF#8, 0#8, 0#8]).HoldsAtPc Config.opcodeMap (.jeq 0xFF (some 0)) := by decide
theorem witness_FaultsArePrecise : (boot [0x11#8]).status.cause = .running ∧
    step (boot [0x11#8]) = .next { boot [0x11#8] with pc := 1, status := ⟨.illegalOpcode, 0x11⟩ } ∧
    step (boot [0x06#8]) = .next { boot [0x06#8] with status := ⟨.truncated, 0⟩ } ∧
    Cause.truncated.isFault = true ∧ Cause.illegalOpcode.isFault = true :=
  ⟨by decide, rfl, rfl, by decide, by decide⟩
/-- The premises of StopCausesClassified: a running state and the state its step reaches. -/
def stops (s : State) (c : Cause) (info : Byte) : Prop :=
  s.status.cause = .running ∧ step s = .next { s with status := ⟨c, info⟩ }

theorem witness_StopCausesClassified_end : stops (boot []) .endOfProgram 0 ∧ stops ((boot [5#8]).setPc 1) .endOfProgram 0 :=
  ⟨⟨by decide, rfl⟩, by decide, rfl⟩
theorem witness_StopCausesClassified_illegal : (boot [0x11#8]).status.cause = .running ∧
    step (boot [0x11#8]) = .next { boot [0x11#8] with pc := 1, status := ⟨.illegalOpcode, 0x11⟩ } :=
  ⟨by decide, rfl⟩
theorem witness_StopCausesClassified_halt : (boot [5#8]).status.cause = .running ∧
    (boot [5#8]).HoldsAtPc Config.opcodeMap .hlt ∧
    step (boot [5#8]) = .next { boot [5#8] with pc := 1, status := ⟨.halt, 0⟩ } := ⟨by decide, by decide, rfl⟩
/-- One byte short, on both paths of JEQ and JNEQ (D18), a bad index notwithstanding (D15). -/
theorem witness_StopCausesClassified_truncated : stops (boot [0x01#8, 0x20#8, 0#8]) .truncated 0 ∧
    stops (boot [0x0F#8, 0#8, 0#8]) .truncated 0 ∧ stops ((boot [0x0F#8]).setEq true) .truncated 0 ∧
    stops (boot [0x10#8]) .truncated 0 ∧ stops ((boot [0x10#8, 0x20#8, 0#8]).setEq true) .truncated 0 :=
  ⟨⟨by decide, rfl⟩, ⟨by decide, rfl⟩, ⟨by decide, rfl⟩, ⟨by decide, rfl⟩, by decide, rfl⟩
/-- The lowest and the highest bad index, and both paths of JEQ and JNEQ (D19). -/
theorem witness_StopCausesClassified_badRegister : stops (boot [0x01#8, 31#8, 0x20#8, 0xFF#8]) .badRegister 0x20 ∧
    stops (boot [0x0F#8, 0xFF#8, 0#8, 0#8]) .badRegister 0xFF ∧
    stops ((boot [0x0F#8, 0x20#8]).setEq true) .badRegister 0x20 ∧ stops (boot [0x10#8, 0x20#8]) .badRegister 0x20 ∧
    stops ((boot [0x10#8, 0xFF#8, 0#8, 0#8]).setEq true) .badRegister 0xFF ∧
    (boot [0x0F#8, 0xFF#8, 0#8, 0#8]).HoldsAtPc Config.opcodeMap (.jeq 0xFF (some 0)) ∧
    (Instr.jeq 0xFF (some 0)).wellFormed = false :=
  ⟨⟨by decide, rfl⟩, ⟨by decide, rfl⟩, ⟨by decide, rfl⟩, ⟨by decide, rfl⟩, ⟨by decide, rfl⟩, by decide, by decide⟩
theorem witness_StopCausesClassified_div : stops (boot2 [0x04#8, 0#8, 1#8, 2#8] 5 0) .divByZero 0 ∧
    (boot2 [0x04#8, 0#8, 1#8, 2#8] 5 0).HoldsAtPc Config.opcodeMap (.div 0 1 2) ∧
    stops (boot2 [0x04#8, 0#8, 1#8, 31#8] 0x80000000 0xFFFFFFFF) .divOverflow 0 ∧
    (boot2 [0x04#8, 0#8, 1#8, 31#8] 0x80000000 0xFFFFFFFF).HoldsAtPc Config.opcodeMap (.div 0 1 31) :=
  ⟨⟨by decide, rfl⟩, by decide, ⟨by decide, rfl⟩, by decide⟩
/-- All five jumps, with a target of -1. -/
theorem witness_StopCausesClassified_jump : stops (boot2 [0x06#8, 0#8] 0xFFFFFFFF 0) .jumpUnderflow 0 ∧
    stops (boot2 [0x07#8, 0#8] 0xFFFFFFFD 0) .jumpUnderflow 0 ∧ stops (boot2 [0x08#8, 0#8] 3 0) .jumpUnderflow 0 ∧
    stops ((boot2 [0x0F#8, 0#8] 0xFFFFFFFF 0).setEq true) .jumpUnderflow 0 ∧
    stops (boot2 [0x10#8, 0#8] 0xFFFFFFFF 0) .jumpUnderflow 0 ∧
    (boot2 [0x10#8, 0#8] 0xFFFFFFFF 0).HoldsAtPc Config.opcodeMap (.jneq 0 none) :=
  ⟨⟨by decide, rfl⟩, ⟨by decide, rfl⟩, ⟨by decide, rfl⟩, ⟨by decide, rfl⟩, ⟨by decide, rfl⟩, by decide⟩
/-- The lowest and the highest register, and a shared source and destination, meet the index hypotheses of LoadResult,
AddSubMulResult, CompareResult and WrappingArithmeticIsUnsignedToo. -/
theorem witness_register_operands : (0#8 : Byte).toNat < 32 ∧ (31#8 : Byte).toNat < 32 ∧
    exec (.load 31 0xFFFF) State.reset = .next ((State.reset.setReg 31 0xFFFF).setPc 4) ∧
    exec (.add 31 31 31) ((boot []).setReg 31 0x80000000) = .next (((boot []).setReg 31 0).setPc 4) ∧
    exec (.gtq 0 0 0xFF) (boot []) = .next (((boot []).setEq true).setPc 4) :=
  ⟨by decide, by decide, rfl, rfl, rfl⟩
theorem witness_DivResult : (boot2 [] 0x80000000 1).x[1] ≠ 0#32 ∧
    ¬((boot2 [] 0x80000000 1).x[0] = 0x80000000#32 ∧ (boot2 [] 0x80000000 1).x[1] = 0xFFFFFFFF#32) ∧
    (boot2 [] 0x7FFFFFFF 0xFFFFFFFF).x[1] ≠ 0#32 ∧
    ¬((boot2 [] 0x7FFFFFFF 0xFFFFFFFF).x[0] = 0x80000000#32 ∧
      (boot2 [] 0x7FFFFFFF 0xFFFFFFFF).x[1] = 0xFFFFFFFF#32) := by decide
theorem witness_DivFaults : (boot2 [] 5 0).x[1] = 0#32 ∧ (boot2 [] 0x80000000 0xFFFFFFFF).x[0] = 0x80000000#32 ∧
    (boot2 [] 0x80000000 0xFFFFFFFF).x[1] = 0xFFFFFFFF#32 := by decide
theorem witness_JumpResult : ((0 : Nat) : Int) = (boot2 [] 0 0).x[0].toInt ∧
    ((0 : Nat) : Int) = ((boot2 [] 0xFFFFFFFE 0).pc : Int) + 2 + (boot2 [] 0xFFFFFFFE 0).x[0].toInt ∧
    ((0 : Nat) : Int) = ((boot2 [] 2 0).pc : Int) + 2 - (boot2 [] 2 0).x[0].toInt ∧
    ((2147483650 : Nat) : Int) = ((boot2 [] 0x80000000 0).pc : Int) + 2 - (boot2 [] 0x80000000 0).x[0].toInt := by
  decide
theorem witness_JumpUnderflowFaults : (boot2 [] 0xFFFFFFFF 0).x[0].toInt < 0 ∧
    ((boot2 [] 0xFFFFFFFD 0).pc : Int) + 2 + (boot2 [] 0xFFFFFFFD 0).x[0].toInt < 0 ∧
    ((boot2 [] 3 0).pc : Int) + 2 - (boot2 [] 3 0).x[0].toInt < 0 ∧
    ((boot2 [] 0x80000000 0).setEq true).eq = true ∧ ((boot2 [] 0x80000000 0).setEq true).x[0].toInt < 0 ∧
    (boot2 [] 0xFFFFFFFF 0).eq = false := by decide
theorem witness_BranchResult : ((boot2 [] 0x7FFFFFFF 0).setEq true).eq = true ∧
    ((2147483647 : Nat) : Int) = ((boot2 [] 0x7FFFFFFF 0).setEq true).x[0].toInt ∧ (boot2 [] 0 0).eq = false ∧
    ((0 : Nat) : Int) = (boot2 [] 0 0).x[0].toInt := by decide
theorem witness_DivisionLaw : exec (.div 0 1 0) (boot2 [] 0xFFFFFFF9 2) =
      .next { boot2 [] 0xFFFFFFFD 2 with rem := 0xFFFFFFFF, pc := 4 } ∧
    (boot2 [] 0xFFFFFFF9 2).x[1] ≠ 0#32 ∧
    ¬((boot2 [] 0xFFFFFFF9 2).x[0] = 0x80000000#32 ∧ (boot2 [] 0xFFFFFFF9 2).x[1] = 0xFFFFFFFF#32) :=
  ⟨rfl, by decide, by decide⟩
theorem witness_ComparisonsComplement :
    exec (.eq 0 1 0) (boot2 [] 1 2) = .next { boot2 [] 1 2 with eq := false, pc := 4 } ∧
    exec (.neq 0 1 0) (boot2 [] 1 2) = .next { boot2 [] 1 2 with eq := true, pc := 4 } ∧
    exec (.gt 0 1 0) (boot2 [] 1 2) = .next { boot2 [] 1 2 with eq := false, pc := 4 } ∧
    exec (.lt 0 1 0) (boot2 [] 1 2) = .next { boot2 [] 1 2 with eq := true, pc := 4 } ∧
    exec (.gtq 0 1 0) (boot2 [] 1 2) = .next { boot2 [] 1 2 with eq := false, pc := 4 } ∧
    exec (.ltq 0 1 0) (boot2 [] 1 2) = .next { boot2 [] 1 2 with eq := true, pc := 4 } :=
  ⟨rfl, rfl, rfl, rfl, rfl, rfl⟩
theorem witness_LoadImmediateBigEndian : (boot [0#8, 31#8, 0xFF#8, 0xFF#8]).status.cause = .running ∧
    (boot [0#8, 31#8, 0xFF#8, 0xFF#8]).prog.readBytes 0 4 =
      .ok [Config.opcodeMap.byteOf .load, 31#8, 0xFF#8, 0xFF#8] ∧
    step (boot [0#8, 31#8, 0xFF#8, 0xFF#8]) =
      .next (((boot [0#8, 31#8, 0xFF#8, 0xFF#8]).setReg 31 0xFFFF).setPc 4) :=
  ⟨by decide, by decide, rfl⟩
/-- A program of one 4-byte instruction meets the reads of LoadInstruction, AddSubMulInstruction, DivInstruction,
EqNeqInstruction and OrderInstruction, with good and bad indices; one byte less meets their truncation. -/
theorem witness_four_byte_instruction : (boot [0x04#8, 31#8, 0#8, 0x20#8]).status.cause = .running ∧
    (boot [0x04#8, 31#8, 0#8, 0x20#8]).prog.read 0 = .ok (Config.opcodeMap.byteOf .div) ∧
    (boot [0x04#8, 31#8, 0#8, 0x20#8]).prog.read 1 = .ok 31 ∧
    (boot [0x04#8, 31#8, 0#8, 0x20#8]).prog.read 2 = .ok 0 ∧
    (boot [0x04#8, 31#8, 0#8, 0x20#8]).prog.read 3 = .ok 0x20 ∧
    (boot [0x04#8, 31#8, 0#8]).prog.read 0 = .ok (Config.opcodeMap.byteOf .div) ∧
    (boot [0x04#8, 31#8, 0#8]).prog.len < 0 + 4 := by decide
theorem witness_four_byte_opcodes : (boot [0x00#8]).prog.read 0 = .ok (Config.opcodeMap.byteOf .load) ∧
    (boot [0x01#8]).prog.read 0 = .ok (Config.opcodeMap.byteOf .add) ∧
    (boot [0x02#8]).prog.read 0 = .ok (Config.opcodeMap.byteOf .sub) ∧
    (boot [0x03#8]).prog.read 0 = .ok (Config.opcodeMap.byteOf .mul) ∧
    (boot [0x09#8]).prog.read 0 = .ok (Config.opcodeMap.byteOf .eq) ∧
    (boot [0x0A#8]).prog.read 0 = .ok (Config.opcodeMap.byteOf .neq) ∧
    (boot [0x0B#8]).prog.read 0 = .ok (Config.opcodeMap.byteOf .gt) ∧
    (boot [0x0C#8]).prog.read 0 = .ok (Config.opcodeMap.byteOf .lt) ∧
    (boot [0x0D#8]).prog.read 0 = .ok (Config.opcodeMap.byteOf .gtq) ∧
    (boot [0x0E#8]).prog.read 0 = .ok (Config.opcodeMap.byteOf .ltq) := by decide
theorem witness_HltInstruction : (boot [0x05#8]).status.cause = .running ∧
    (boot [0x05#8]).prog.read 0 = .ok (Config.opcodeMap.byteOf .hlt) := by decide
theorem witness_JumpInstruction : (boot [0x06#8, 31#8]).status.cause = .running ∧
    (boot [0x06#8, 31#8]).prog.read 0 = .ok (Config.opcodeMap.byteOf .jmp) ∧
    (boot [0x06#8, 31#8]).prog.read 1 = .ok 31 ∧ (boot [0x07#8, 0x20#8]).prog.read 1 = .ok 0x20 ∧
    (boot [0x07#8, 0#8]).prog.read 0 = .ok (Config.opcodeMap.byteOf .jmpf) ∧
    (boot [0x08#8]).prog.read 0 = .ok (Config.opcodeMap.byteOf .jmpb) ∧ (boot [0x08#8]).prog.len < 0 + 2 := by decide
theorem witness_BranchInstruction : (boot [0x0F#8, 0#8, 0#8, 0#8]).prog.read 0 = .ok (Config.opcodeMap.byteOf .jeq) ∧
    false = (boot [0x0F#8, 0#8, 0#8, 0#8]).eq ∧ 0 + 4 ≤ (boot [0x0F#8, 0#8, 0#8, 0#8]).prog.len ∧
    (boot [0x0F#8, 0#8, 0#8]).prog.len < 0 + 4 ∧
    (boot [0x10#8, 31#8]).prog.read 0 = .ok (Config.opcodeMap.byteOf .jneq) ∧ true = !(boot [0x10#8, 31#8]).eq ∧
    (boot [0x10#8, 31#8]).prog.read 1 = .ok 31 ∧ (boot [0x10#8, 0x20#8]).prog.read 1 = .ok 0x20 ∧
    (boot [0x10#8]).prog.len < 0 + 2 ∧ (boot [0x10#8]).status.cause = .running := by decide
/-- Next states for the frames: ProgramChangedOnlyByLoad, OnlyDestinationRegisterChanges, OnlyComparisonsWriteEq,
OnlyCompletedDivWritesRem, OnlyStopsWriteStatus, RemReadByNoInstruction. -/
theorem witness_frames : exec (.mul 0 1 31) (boot2 [] 3 4) = .next { (boot2 [] 3 4).setReg 31 12 with pc := 4 } ∧
    (31#8 : Byte).toNat ≠ 30 ∧
    exec (.eq 0 0 0) (boot []) = .next { boot [] with eq := true, pc := 4 } ∧ (true ≠ (boot []).eq) ∧
    exec (.div 0 1 2) (boot2 [] 7 2) = .next { (boot2 [] 7 2).setReg 2 3 with rem := 1, pc := 4 } ∧
    (1#32 ≠ (boot2 [] 7 2).rem) ∧
    exec .hlt (boot []) = .next { boot [] with pc := 1, status := ⟨.halt, 0⟩ } ∧
    exec (.jmp 0x20) (boot []) = .next { boot [] with status := ⟨.badRegister, 0x20⟩ } :=
  ⟨rfl, by decide, rfl, by decide, rfl, by decide, rfl, rfl⟩
theorem witness_ProgramChangedOnlyByLoad : HostOp.pokeEq true ≠ .new ∧
    hostApply (.pokeEq true) (boot [5#8]) = .next { boot [5#8] with eq := true } ∧
    step (boot [5#8]) = .next { boot [5#8] with pc := 1, status := ⟨.halt, 0⟩ } := ⟨by decide, rfl, rfl⟩
theorem witness_EqReadOnlyByConditionalJumps : (Instr.sub 0 1 2).op ≠ .jeq ∧ (Instr.sub 0 1 2).op ≠ .jneq ∧
    exec (.sub 0 1 2) (boot2 [] 3 1) = .next { (boot2 [] 3 1).setReg 2 2 with pc := 4 } :=
  ⟨by decide, by decide, rfl⟩
/-- A state with the invariant and its step: StepKeepsInvariant, HostOperationsKeepInvariant, PcNeverWraps (at its bound of a
jump). -/
theorem witness_invariant : (boot2 [0x08#8, 0#8] 0x80000000 0).Inv ∧
    step (boot2 [0x08#8, 0#8] 0x80000000 0) = .next { boot2 [0x08#8, 0#8] 0x80000000 0 with pc := 2147483650 } ∧
    { State.reset with status := ⟨.badRegister, 0x20⟩ }.Inv ∧ { State.reset with pc := 2 ^ 33 - 1 }.Inv ∧
    ¬{ State.reset with status := ⟨.badRegister, 0x1F⟩ }.Inv ∧ ¬{ State.reset with pc := 2 ^ 33 }.Inv :=
  ⟨by decide, rfl, by decide, by decide, by decide, by decide⟩
theorem witness_ReachableStatesHaveInvariant : (boot [5#8]).Reachable := ⟨[.load [5#8]], rfl⟩
theorem witness_NonJumpStaysInProgram : (boot [0x05#8]).status.cause = .running ∧
    (boot [0x05#8]).HoldsAtPc Config.opcodeMap .hlt ∧ Instr.hlt.op ≠ .jmp ∧ Instr.hlt.op ≠ .jmpf ∧
    Instr.hlt.op ≠ .jmpb ∧ Instr.hlt.op ≠ .jeq ∧ Instr.hlt.op ≠ .jneq ∧
    step (boot [0x05#8]) = .next { boot [0x05#8] with pc := 1, status := ⟨.halt, 0⟩ } :=
  ⟨by decide, by decide, by decide, by decide, by decide, by decide, by decide, rfl⟩
theorem witness_LoadReplacesProgram : ([] : List Byte).length ≤ 2 ^ 32 - 1 ∧ 0 < [5#8].length ∧
    2 ^ 32 - 1 < (List.replicate (2 ^ 32) 0#8).length := ⟨by decide, by decide, by rw [List.length_replicate]; decide⟩
theorem witness_ProgramStoreCanonical : (boot [5#8, 0#8]).prog.wf = true := by decide
theorem witness_HaltLeftOnlyByLoadOrNew : ((boot [5#8]).setStatus .halt 0).status.cause ≠ .running ∧
    (∀ op ∈ [HostOp.step, HostOp.pokePc 0], op ≠ .new ∧ ∀ bs, op ≠ .load bs) ∧
    hostApplyAll [HostOp.step, HostOp.pokePc 0] ((boot [5#8]).setStatus .halt 0) =
      .next ((boot [5#8]).setStatus .halt 0) := ⟨by decide, by simp, rfl⟩
theorem witness_RunStepsUntilHalted : hostRun 1 (boot [5#8]) = some { boot [5#8] with pc := 1, status := ⟨.halt, 0⟩ } ∧
    Sys2Proof.core.run 1 (boot [5#8]) = .next { boot [5#8] with pc := 1, status := ⟨.halt, 0⟩ } := ⟨rfl, rfl⟩

end Sys2Proof.Tests
end

section
/-! PROOFS. The program frame (10_state.md R36): what keeps the program store, from the smallest operation to the host's. -/

namespace Sys2Proof.Machine

/-- Each of the next states that `Effect` lists is built by writes to fields other than the program. -/
theorem Effect.prog_eq {i : Instr} {s t : State} (h : Effect i s t) : t.prog = s.prog := by
  cases h with
  | fault c info _ _ => exact setStatus_prog s c info
  | halt _ => rw [setStatus_prog, setPc_prog]
  | reg d v _ => rw [setPc_prog, setReg_prog]
  | div d q r _ => rw [setPc_prog, setRem_prog, setReg_prog]
  | flag b _ => rw [setPc_prog, setEq_prog]
  | jump n _ _ => exact setPc_prog s n

theorem exec_prog_eq {i : Instr} {s t : State} (h : exec i s = .next t) : t.prog = s.prog :=
  (effect_of_exec h).prog_eq

/-- A step keeps the program under every OPCODE_MAP: the stops before execution write STATUS and `pc` at most. -/
theorem stepWith_prog_eq {m : OpcodeMap} {s t : State} (h : stepWith m s = .next t) : t.prog = s.prog := by
  rcases stepWith_cases m s with ⟨_, halted⟩ | ⟨_, _, ended⟩ | ⟨_, _, _, _, illegal⟩ |
    ⟨_, _, _, _, _, _, truncated⟩ | ⟨_, _, _, _, _, _, _, _, _, _, _, executed⟩
  · cases halted.symm.trans h
    rfl
  · cases ended.symm.trans h
    exact setStatus_prog s .endOfProgram 0#8
  · cases illegal.symm.trans h
    rw [setStatus_prog, setPc_prog]
  · cases truncated.symm.trans h
    exact setStatus_prog s .truncated 0#8
  · exact exec_prog_eq (executed.symm.trans h)

theorem step_prog_eq {s t : State} (h : step s = .next t) : t.prog = s.prog := stepWith_prog_eq h

/-- Of the host's operations only `new` and `load` can replace the program (R36, R240, R242, R246). -/
theorem hostApply_prog_eq {op : HostOp} {s t : State} (hnew : op ≠ .new) (hload : ∀ bs, op ≠ .load bs)
    (h : hostApply op s = .next t) : t.prog = s.prog := by
  cases op with
  | new => exact absurd rfl hnew
  | load bs => exact absurd rfl (hload bs)
  | step => exact step_prog_eq h
  | pokeReg i v => cases h; exact setReg_prog s i v
  | pokePc v => cases h; exact setPc_prog s v.toNat
  | pokeRem v => cases h; exact setRem_prog s v
  | pokeEq b => cases h; exact setEq_prog s b

/-- Settles O40: every next state of an instruction keeps the program (`Effect.prog_eq`), and steps and host operations
other than `new` and `load` add only writes to other fields. -/
theorem programChangedOnlyByLoad : Obligations.ProgramChangedOnlyByLoad := by
  refine ⟨fun i s t h => ?_, fun _ _ => step_prog_eq, fun _ _ _ => hostApply_prog_eq, rfl⟩
  have hprog : t.prog = s.prog := exec_prog_eq h
  exact ⟨congrArg Memory.len hprog, fun a => congrArg (·.read a) hprog⟩

end Sys2Proof.Machine
end

section
/-! PROOFS. What the decoder consumes (30_encoding.md R77, R78): the opcode byte fixes the mnemonic, the mnemonic and the flag
the number of bytes. -/

namespace Sys2Proof

/-- An instruction of one operand byte is 2 bytes long with its opcode byte, whatever that operand is. -/
theorem op_and_length_of_take1 {bs : List Byte} {k : Byte → Instr} {op : Op} {i : Instr} {rest : List Byte}
    (hk : ∀ a, (k a).op = op) (h : take1 bs k = .instr i rest) :
    i.op = op ∧ bs.length + 1 = rest.length + 2 := by
  obtain ⟨a, rfl, rfl⟩ := take1_eq_instr_iff.mp h
  exact ⟨hk a, rfl⟩

/-- An instruction of three operand bytes is 4 bytes long with its opcode byte, whatever those operands are. -/
theorem op_and_length_of_take3 {bs : List Byte} {k : Byte → Byte → Byte → Instr} {op : Op} {i : Instr}
    {rest : List Byte} (hk : ∀ a b c, (k a b c).op = op) (h : take3 bs k = .instr i rest) :
    i.op = op ∧ bs.length + 1 = rest.length + 4 := by
  obtain ⟨a, b, c, rfl, rfl⟩ := take3_eq_instr_iff.mp h
  exact ⟨hk a b c, rfl⟩

/-- The operand bytes never change the mnemonic, and with the opcode byte they are as many as R78 says. -/
theorem op_and_length_of_decodeOperands {op : Op} {eq : Bool} {bs : List Byte} {i : Instr} {rest : List Byte}
    (h : decodeOperands op eq bs = .instr i rest) :
    i.op = op ∧ bs.length + 1 = rest.length + op.length eq := by
  cases op with
  | hlt =>
    cases h
    exact ⟨rfl, rfl⟩
  | jmp | jmpf | jmpb => exact op_and_length_of_take1 (fun _ => rfl) h
  | load | add | sub | mul | div | eq | neq | gt | lt | gtq | ltq =>
    exact op_and_length_of_take3 (fun _ _ _ => rfl) h
  | jeq =>
    cases eq with
    | true => exact op_and_length_of_take1 (fun _ => rfl) h
    | false => exact op_and_length_of_take3 (fun _ _ _ => rfl) h
  | jneq =>
    cases eq with
    | true => exact op_and_length_of_take3 (fun _ _ _ => rfl) h
    | false => exact op_and_length_of_take1 (fun _ => rfl) h

/-- A decoded instruction has the mnemonic of the first byte and consumed the bytes of R78. -/
theorem decodeOp_and_length_of_decode {m : OpcodeMap} {eq : Bool} {bs : List Byte} {i : Instr} {rest : List Byte}
    (h : decode m eq bs = .instr i rest) :
    ∃ b operands, bs = b :: operands ∧ decodeOp m b = some i.op ∧
      bs.length = rest.length + i.op.length eq := by
  rcases decode_cases m eq bs with ⟨_, noByte⟩ | ⟨_, _, _, _, illegal⟩ | ⟨_, _, _, _, _, _, truncated⟩ |
    ⟨b, operands, op, _, _, hbs, hop, _, hoperands, instr⟩
  · cases noByte.symm.trans h
  · cases illegal.symm.trans h
  · cases truncated.symm.trans h
  · cases instr.symm.trans h
    obtain ⟨rfl, hlen⟩ := op_and_length_of_decodeOperands hoperands
    exact ⟨b, operands, hbs, hop, hbs ▸ hlen⟩

/-- ILLEGAL is the answer to an opcode byte outside OPCODE_MAP and to no other, whatever follows it. -/
theorem decode_cons_eq_illegal_iff {m : OpcodeMap} {eq : Bool} {b : Byte} {operands : List Byte} :
    decode m eq (b :: operands) = .illegal b ↔ decodeOp m b = none := by
  refine ⟨fun h => ?_, decode_cons_none⟩
  cases hop : decodeOp m b with
  | none => rfl
  | some op =>
    rw [decode_cons_some hop] at h
    exact absurd h (decodeOperands_ne_illegal op eq operands b)

/-- Settles O4: `decodeOp` inverts the injective OPCODE_MAP and misses only the bytes outside it, and `decode` takes the
mnemonic from it alone. -/
theorem opcodeByteSelectsInstruction : Obligations.OpcodeByteSelectsInstruction := by
  intro m b
  refine ⟨fun _ => decodeOp_eq_some_iff, decodeOp_eq_none_iff, fun eq operands =>
    ⟨decode_cons_eq_illegal_iff, fun i rest h => ?_⟩⟩
  obtain ⟨_, _, hbs, hop, _⟩ := decodeOp_and_length_of_decode h
  cases hbs
  exact hop

end Sys2Proof

namespace Sys2Proof.Machine

/-- The ILLEGAL_OPCODE stop (R82), under every OPCODE_MAP: of all that a step can do, only this agrees with an unassigned
byte at `pc`. -/
theorem stepWith_of_illegal {m : OpcodeMap} {s : State} {b : Byte} (hrun : s.status.cause = .running)
    (hread : s.prog.read s.pc = .ok b) (hop : decodeOp m b = none) :
    stepWith m s = .next ((s.setPc (s.pc + 1)).setStatus .illegalOpcode b) := by
  rcases stepWith_cases m s with ⟨halted, _⟩ | ⟨_, ended, _⟩ | ⟨b', _, hread', _, illegal⟩ |
    ⟨b', op, _, hread', hop', _, _⟩ | ⟨b', op, _, _, _, _, hread', hop', _⟩
  · exact absurd hrun halted
  · exact absurd (lt_len_of_read hread) ended.not_gt
  · cases hread.symm.trans hread'
    exact illegal
  · cases hread.symm.trans hread'
    cases hop.symm.trans hop'
  · cases hread.symm.trans hread'
    cases hop.symm.trans hop'

/-- A run ends at the first step that returns true (R245). -/
theorem hostRun_succ_of_hostStep_true {k : Nat} {s t : State} (h : hostStep s = .next (t, true)) :
    hostRun (k + 1) s = some t := by
  simp only [hostRun, h]

/-- Settles O6: the obligation writes `Op.length` out per mnemonic; an illegal opcode's one byte is what `pc` passes. -/
theorem instructionLengths : Obligations.InstructionLengths := by
  refine ⟨fun m eq bs i rest h => ?_, fun m s b hrun hread hop => ⟨_, stepWith_of_illegal hrun hread hop, rfl⟩⟩
  obtain ⟨_, _, _, _, hlen⟩ := decodeOp_and_length_of_decode h
  rw [hlen]
  cases i.op <;> rfl

/-- Settles O13: the step of an unassigned opcode byte returns true, so the run ends with it. -/
theorem illegalOpcodeStops : Obligations.IllegalOpcodeStops := by
  intro s b hrun hread hop
  have hstep : hostStep s = .next ({ s with pc := s.pc + 1, status := ⟨.illegalOpcode, b⟩ }, true) :=
    hostStep_of_step (stepWith_of_illegal hrun hread hop)
  exact ⟨hstep, fun _ => hostRun_succ_of_hostStep_true hstep⟩

end Sys2Proof.Machine
end

section
/-! PROOFS. A loaded program read back (70_reset_and_hazards.md R242), the fetch's two outcomes (30_encoding.md R90, R91), and
HLT (42_halt.md R140). -/

namespace Sys2Proof.Machine

theorem read_ofBytes {bs : List Byte} {a : Nat} (h : a < bs.length) :
    (Memory.ofBytes bs).read a = .ok bs[a] :=
  read_eq_ok_iff.mpr ⟨h, lookupCell_cellsFrom 0 a bs (Nat.zero_le a) (by rwa [Nat.zero_add])⟩

/-- A program that is not refused (R243) replaces the old one and leaves the core running. -/
theorem load_of_length_le {s : State} {bs : List Byte} (h : bs.length ≤ Config.maxProgLen) :
    s.load bs = (s.setProg (Memory.ofBytes bs)).setStatus .running 0#8 := if_pos h

theorem fetch_of_halted {m : OpcodeMap} {s : State} (h : s.status.cause ≠ .running) :
    s.fetch m = .ok (.stopped s) := if_pos ((halted_iff s).mpr h)

theorem fetch_of_window {m : OpcodeMap} {s : State} {bs : List Byte} (hrun : s.status.cause = .running)
    (hw : s.window = .ok bs) : s.fetch m = .ok (s.afterDecode (decode m s.eq bs)) := by
  simp [State.fetch, (halted_eq_false_iff s).mpr hrun, hw]

theorem stepWith_of_halted {m : OpcodeMap} {s : State} (h : s.status.cause ≠ .running) :
    stepWith m s = .next s := by
  simp only [stepWith, fetch_of_halted h]

/-- Under every OPCODE_MAP a running core executes the instruction that its window decodes to. -/
theorem stepWith_of_decode {m : OpcodeMap} {s : State} {bs rest : List Byte} {i : Instr}
    (hrun : s.status.cause = .running) (hw : s.window = .ok bs) (hd : decode m s.eq bs = .instr i rest) :
    stepWith m s = exec i s := by
  simp only [stepWith, fetch_of_window hrun hw, hd, State.afterDecode]

theorem hostStep_of_halted {s : State} (h : s.status.cause ≠ .running) : hostStep s = .next (s, true) := by
  rw [hostStep_of_step (stepWith_of_halted h), (halted_iff s).mpr h]

theorem exec_hlt (s : State) : exec .hlt s = .next ((s.setPc (s.pc + 1)).setStatus .halt 0#8) := rfl

/-- HLT takes no operands, so its byte alone decides the step, whatever bytes follow it. -/
theorem stepWith_of_read_hlt {m : OpcodeMap} {s : State} (hrun : s.status.cause = .running)
    (hread : s.prog.read s.pc = .ok (m.byteOf .hlt)) :
    stepWith m s = .next ((s.setPc (s.pc + 1)).setStatus .halt 0#8) := by
  obtain ⟨bs, hw, _⟩ := window_of_read hread
  have hd : decode m s.eq (m.byteOf .hlt :: bs) = .instr .hlt bs := decode_cons_some (decodeOp_byteOf m .hlt)
  rw [stepWith_of_decode hrun hw hd, exec_hlt]

/-- Settles O35: the byte of HLT runs HLT, the state after it is halted and steps to itself, and a run of the lone HLT ends
with its first step. -/
theorem hltInstruction : Obligations.HltInstruction := by
  have hstep (s : State) (hrun : s.status.cause = .running)
      (hread : s.prog.read s.pc = .ok (Config.opcodeMap.byteOf .hlt)) :
      hostStep s = .next ({ s with pc := s.pc + 1, status := ⟨.halt, 0#8⟩ }, true) :=
    hostStep_of_step (stepWith_of_read_hlt hrun hread)
  refine ⟨fun s hrun hread => ⟨hstep s hrun hread, hostStep_of_halted Cause.noConfusion⟩, fun k => ?_⟩
  have hlen : [Config.opcodeMap.byteOf .hlt].length ≤ Config.maxProgLen := by decide
  rw [load_of_length_le hlen, hostRun_succ_of_hostStep_true (hstep _ rfl (read_ofBytes Nat.zero_lt_one))]
  rfl

end Sys2Proof.Machine
end

section
/-! PROOFS. Decode and encode are inverse (30_encoding.md R70 to R80), and the default opcode table (R76, R81). -/

namespace Sys2Proof

/-- The operand bytes of an instruction in the form the flag selects decode back to it. -/
theorem decodeOperands_operandBytes {eq : Bool} {i : Instr} (rest : List Byte) (h : i.fitsFlag eq = true) :
    decodeOperands i.op eq (operandBytes i ++ rest) = .instr i rest := by
  cases i with
  | load r imm => simp [Instr.op, operandBytes, decodeOperands, take3]
  | jeq r f =>
    obtain rfl : f.isNone = eq := by simpa [Instr.fitsFlag] using h
    cases f <;> simp [Instr.op, operandBytes, decodeOperands, take1, take3]
  | jneq r f =>
    obtain rfl : f.isSome = eq := by simpa [Instr.fitsFlag] using h
    cases f <;> simp [Instr.op, operandBytes, decodeOperands, take1, take3]
  | _ => rfl

/-- Settles O2: the opcode byte decodes to its mnemonic, and the operand bytes to the operands. -/
theorem decodeOfEncodeIsIdentity : Obligations.DecodeOfEncodeIsIdentity := by
  intro m eq i rest h
  rw [encode, List.cons_append, decode_cons_some (decodeOp_byteOf m i.op)]
  exact decodeOperands_operandBytes rest h

/-- What the operands of a mnemonic were decoded from: the operand bytes of an instruction of that mnemonic, in the form the
flag selects. -/
theorem eq_operandBytes_of_decodeOperands {op : Op} {eq : Bool} {bs : List Byte} {i : Instr} {rest : List Byte}
    (h : decodeOperands op eq bs = .instr i rest) :
    i.op = op ∧ i.fitsFlag eq = true ∧ bs = operandBytes i ++ rest := by
  cases op with
  | hlt =>
    cases h
    exact ⟨rfl, rfl, rfl⟩
  | jmp | jmpf | jmpb =>
    obtain ⟨a, rfl, rfl⟩ := take1_eq_instr_iff.mp h
    exact ⟨rfl, rfl, rfl⟩
  | load =>
    obtain ⟨a, b, c, rfl, rfl⟩ := take3_eq_instr_iff.mp h
    exact ⟨rfl, rfl, by simp [operandBytes]⟩
  | add | sub | mul | div | eq | neq | gt | lt | gtq | ltq =>
    obtain ⟨a, b, c, rfl, rfl⟩ := take3_eq_instr_iff.mp h
    exact ⟨rfl, rfl, rfl⟩
  | jeq =>
    cases eq with
    | true =>
      obtain ⟨a, rfl, rfl⟩ := take1_eq_instr_iff.mp h
      exact ⟨rfl, rfl, rfl⟩
    | false =>
      obtain ⟨a, b, c, rfl, rfl⟩ := take3_eq_instr_iff.mp h
      exact ⟨rfl, rfl, by simp [operandBytes]⟩
  | jneq =>
    cases eq with
    | true =>
      obtain ⟨a, b, c, rfl, rfl⟩ := take3_eq_instr_iff.mp h
      exact ⟨rfl, rfl, by simp [operandBytes]⟩
    | false =>
      obtain ⟨a, rfl, rfl⟩ := take1_eq_instr_iff.mp h
      exact ⟨rfl, rfl, rfl⟩

/-- Settles O3: of the decoder's answers only an instruction qualifies, and its opcode byte is the one OPCODE_MAP gives its
mnemonic. -/
theorem encodeOfDecodeIsIdentity : Obligations.EncodeOfDecodeIsIdentity := by
  intro m eq bs i rest h
  obtain ⟨b, operands, rfl, hop, _⟩ := decodeOp_and_length_of_decode h
  rw [decode_cons_some hop] at h
  obtain ⟨_, hfits, rfl⟩ := eq_operandBytes_of_decodeOperands h
  exact ⟨hfits, by rw [encode, decodeOp_eq_some_iff.mp hop]; rfl⟩

/-- Settles O1: the decoder evaluated on the byte strings. -/
theorem decodesBytesAsWritten : Obligations.DecodesBytesAsWritten := by
  unfold Obligations.DecodesBytesAsWritten
  decide

/-- The default table lists every mnemonic at the position that is its opcode byte (R76). -/
theorem opAll_getElem?_eq_some_iff {n : Nat} {op : Op} :
    Op.all[n]? = some op ↔ (Config.opcodeMap.byteOf op).toNat = n := by
  constructor
  · have positions : ∀ k : Fin Op.all.length, (Config.opcodeMap.byteOf Op.all[k]).toNat = k := by decide
    intro h
    obtain ⟨hn, hget⟩ := List.getElem?_eq_some_iff.mp h
    exact hget ▸ positions ⟨n, hn⟩
  · rintro rfl
    cases op <;> rfl

/-- Settles O5: a byte decodes to the mnemonic whose opcode byte it is, which is the mnemonic at its position of the table. -/
theorem defaultOpcodeTable : Obligations.DefaultOpcodeTable := by
  intro b
  refine Option.ext fun op => ?_
  rw [decodeOp_eq_some_iff, ← BitVec.toNat_inj]
  exact opAll_getElem?_eq_some_iff.symm

end Sys2Proof
end

section
/-! PROOFS. The step (30_encoding.md R90): what instruction the program holds at `pc`, the stops before execution, and the one
instruction a step runs. -/

namespace Sys2Proof.Machine

/-! ## The instruction at `pc` -/

/-- A shorter read answers the first of the bytes that a longer one answers. -/
theorem readBytes_of_append {p : Memory} {a n : Nat} {bs cs : List Byte} (h : p.readBytes a n = .ok (bs ++ cs)) :
    p.readBytes a bs.length = .ok bs := by
  induction bs generalizing a n with
  | nil => rfl
  | cons b bs ih =>
    obtain ⟨k, rfl⟩ : ∃ k, n = k + 1 := ⟨(bs ++ cs).length, by simpa using (readBytes_length h).symm⟩
    obtain ⟨hb, hbs⟩ := readBytes_succ_eq_ok_iff.mp h
    exact readBytes_succ_eq_ok_iff.mpr ⟨hb, ih hbs⟩

/-- The program holds at `pc` the instruction that the window decodes to. -/
theorem holdsAtPc_of_decode {m : OpcodeMap} {s : State} {bs rest : List Byte} {i : Instr} (hw : s.window = .ok bs)
    (hd : decode m s.eq bs = .instr i rest) : s.HoldsAtPc m i := by
  obtain ⟨hfits, rfl⟩ := encodeOfDecodeIsIdentity m s.eq bs i rest hd
  exact ⟨hfits, readBytes_of_append hw⟩

/-- The window decodes to the instruction that the program holds at `pc`. -/
theorem decode_of_holdsAtPc {m : OpcodeMap} {s : State} {i : Instr} (h : s.HoldsAtPc m i) :
    ∃ bs rest, s.window = .ok bs ∧ decode m s.eq bs = .instr i rest := by
  obtain ⟨hfits, hread⟩ := h
  have hlen : (encode m i).length ≤ 4 := encode_length m hfits ▸ length_le_four i.op s.eq
  obtain ⟨rest, hw⟩ := window_of_readBytes hread hlen
  exact ⟨_, rest, hw, decodeOfEncodeIsIdentity m s.eq i rest hfits⟩

/-- All the bytes of the instruction held at `pc` are below L. -/
theorem length_le_of_holdsAtPc {m : OpcodeMap} {s : State} {i : Instr} (h : s.HoldsAtPc m i) :
    s.pc + i.op.length s.eq ≤ s.prog.len := by
  have := readBytes_le_len h.2
  have := length_pos i.op s.eq
  rw [encode_length m h.1] at *
  omega

/-- An instruction of 2 bytes, held where those bytes are read. -/
theorem holdsAtPc_of_read2 {m : OpcodeMap} {s : State} {i : Instr} {b0 b1 : Byte} (hfits : i.fitsFlag s.eq = true)
    (hi : encode m i = [b0, b1]) (h0 : s.prog.read s.pc = .ok b0) (h1 : s.prog.read (s.pc + 1) = .ok b1) :
    s.HoldsAtPc m i := by
  refine ⟨hfits, ?_⟩
  rw [hi]
  exact readBytes_succ_eq_ok_iff.mpr ⟨h0, readBytes_succ_eq_ok_iff.mpr ⟨h1, rfl⟩⟩

/-- An instruction of 4 bytes, held where those bytes are read. -/
theorem holdsAtPc_of_read4 {m : OpcodeMap} {s : State} {i : Instr} {b0 b1 b2 b3 : Byte}
    (hfits : i.fitsFlag s.eq = true) (hi : encode m i = [b0, b1, b2, b3]) (h0 : s.prog.read s.pc = .ok b0)
    (h1 : s.prog.read (s.pc + 1) = .ok b1) (h2 : s.prog.read (s.pc + 2) = .ok b2)
    (h3 : s.prog.read (s.pc + 3) = .ok b3) : s.HoldsAtPc m i := by
  refine ⟨hfits, ?_⟩
  rw [hi]
  exact readBytes_succ_eq_ok_iff.mpr ⟨h0, readBytes_succ_eq_ok_iff.mpr ⟨h1, readBytes_succ_eq_ok_iff.mpr
    ⟨h2, readBytes_succ_eq_ok_iff.mpr ⟨h3, rfl⟩⟩⟩⟩

/-! ## What a step of a running core does -/

theorem stepWith_of_holdsAtPc {m : OpcodeMap} {s : State} {i : Instr} (hrun : s.status.cause = .running)
    (h : s.HoldsAtPc m i) : stepWith m s = exec i s := by
  obtain ⟨_, _, hw, hd⟩ := decode_of_holdsAtPc h
  exact stepWith_of_decode hrun hw hd

/-- The END stop (R92): at or beyond L the window is empty. -/
theorem stepWith_of_end {m : OpcodeMap} {s : State} (hrun : s.status.cause = .running) (hend : s.prog.len ≤ s.pc) :
    stepWith m s = .next (s.setStatus .endOfProgram 0#8) := by
  simp only [stepWith, fetch_of_window hrun (window_nil_iff.mpr hend), decode_nil, State.afterDecode, haltWith_eq]

/-- The TRUNCATED stop (R83): of all that a step can do, only this agrees with an instruction that is too long for the
program. -/
theorem stepWith_of_truncated {m : OpcodeMap} {s : State} {b : Byte} {op : Op} (hrun : s.status.cause = .running)
    (hread : s.prog.read s.pc = .ok b) (hop : decodeOp m b = some op) (hlen : s.prog.len < s.pc + op.length s.eq) :
    stepWith m s = .next (s.setStatus .truncated 0#8) := by
  rcases stepWith_cases m s with ⟨halted, _⟩ | ⟨_, ended, _⟩ | ⟨b', _, hread', hop', _⟩ |
    ⟨_, _, _, _, _, _, truncated⟩ | ⟨b', op', _, _, _, _, hread', hop', hlen', _⟩
  · exact absurd hrun halted
  · exact absurd (lt_len_of_read hread) ended.not_gt
  · cases hread.symm.trans hread'
    cases hop.symm.trans hop'
  · exact truncated
  · cases hread.symm.trans hread'
    cases hop.symm.trans hop'
    exact absurd hlen hlen'.not_gt

/-- Everything a step of a running core can do (R90), the executed instruction named by the program's bytes. -/
theorem stepWith_running_cases {m : OpcodeMap} {s : State} (hrun : s.status.cause = .running) :
    (s.prog.len ≤ s.pc ∧ stepWith m s = .next (s.setStatus .endOfProgram 0#8)) ∨
    (∃ b, s.prog.read s.pc = .ok b ∧ decodeOp m b = none ∧
      stepWith m s = .next ((s.setPc (s.pc + 1)).setStatus .illegalOpcode b)) ∨
    (∃ b op, s.prog.read s.pc = .ok b ∧ decodeOp m b = some op ∧ s.prog.len < s.pc + op.length s.eq ∧
      stepWith m s = .next (s.setStatus .truncated 0#8)) ∨
    (∃ i, s.HoldsAtPc m i ∧ stepWith m s = exec i s) := by
  rcases stepWith_cases m s with ⟨halted, _⟩ | ⟨_, ended⟩ | ⟨b, _, illegal⟩ | ⟨b, op, _, truncated⟩ |
    ⟨_, _, _, i, _, _, _, _, _, hw, hd, executed⟩
  · exact absurd hrun halted
  · exact .inl ended
  · exact .inr (.inl ⟨b, illegal⟩)
  · exact .inr (.inr (.inl ⟨b, op, truncated⟩))
  · exact .inr (.inr (.inr ⟨i, holdsAtPc_of_decode hw hd, executed⟩))

theorem stepWith_total (m : OpcodeMap) (s : State) : ∃ t, stepWith m s = .next t := by
  rcases stepWith_cases m s with ⟨_, halted⟩ | ⟨_, _, ended⟩ | ⟨_, _, _, _, illegal⟩ |
    ⟨_, _, _, _, _, _, truncated⟩ | ⟨_, _, _, i, _, _, _, _, _, _, _, executed⟩
  · exact ⟨_, halted⟩
  · exact ⟨_, ended⟩
  · exact ⟨_, illegal⟩
  · exact ⟨_, truncated⟩
  · obtain ⟨t, ht, _⟩ := exec_effect i s
    exact ⟨t, executed.trans ht⟩

/-! ## The obligations on the step -/

/-- Settles O8: the program's bytes at `pc` are the head of the window, which decodes to the instruction. -/
theorem stepRunsInstructionInProgram : Obligations.StepRunsInstructionInProgram :=
  ⟨fun _ _ _ hrun h => stepWith_of_holdsAtPc hrun h, fun _ => rfl⟩

/-- Settles O9: each stop before execution is a next state, and so is every effect of an instruction. -/
theorem stepAlwaysAnswersNext : Obligations.StepAlwaysAnswersNext := stepWith_total

/-- Settles O12: END is the step of a core at or beyond L, and a core that ends running is not halted. -/
theorem endOfProgramStops : Obligations.EndOfProgramStops := by
  have atEnd (s : State) (hrun : s.status.cause = .running) (hend : s.prog.len ≤ s.pc) :
      hostStep s = .next ({ s with status := ⟨.endOfProgram, 0#8⟩ }, true) :=
    hostStep_of_step (stepWith_of_end hrun hend)
  refine ⟨atEnd, fun s t hstep hrun => ⟨?_, atEnd t hrun⟩⟩
  rw [hostStep_of_step hstep, (halted_eq_false_iff t).mpr hrun]

/-- Settles O14: the stop is decided by the opcode byte and L, before the operands are looked at. -/
theorem truncatedInstructionStops : Obligations.TruncatedInstructionStops :=
  fun _ _ _ hrun hread hop hlen => hostStep_of_step (stepWith_of_truncated hrun hread hop hlen)

/-- Settles O7, the case of the default OPCODE_MAP. -/
theorem stepRunsDecodedInstruction : Obligations.StepRunsDecodedInstruction :=
  fun _ _ _ _ hrun hw hd => stepWith_of_decode hrun hw hd

/-- Settles O10: every step answers a next state, and the host is told whether that state is halted. -/
theorem stepReturnsHalted : Obligations.StepReturnsHalted := by
  intro s
  obtain ⟨t, ht⟩ := stepWith_total Config.opcodeMap s
  exact ⟨t, hostStep_of_step ht, ht⟩

/-- Settles O11: the fetch of a halted core stops with the state as it is. -/
theorem haltedStepChangesNothing : Obligations.HaltedStepChangesNothing :=
  fun _ h => ⟨stepWith_of_halted h, hostStep_of_halted h⟩

end Sys2Proof.Machine
end

section
/-! PROOFS. What each instruction does when its meaning runs: BAD_REGISTER first (30_encoding.md R84), then the result or
the fault of its own rule (40_load.md to 45_branch.md). -/

namespace Sys2Proof.Machine

/-! ## A bad register index -/

theorem withReg_of_firstBadReg {i : Instr} {s : State} {r b : Byte} {k : Fin 32 → State} (hi : i.regBytes = [r])
    (h : i.firstBadReg = some b) : s.withReg r k = s.setStatus .badRegister b := by
  rcases withReg_cases s r k with ⟨h1, _⟩ | ⟨h1, e⟩
  · simp [Instr.firstBadReg, hi, namesRegister_of_lt h1] at h
  · obtain rfl : r = b := by simpa [Instr.firstBadReg, hi, namesRegister_of_le h1] using h
    exact e

theorem compare_of_firstBadReg {i : Instr} {s : State} {rs1 rs2 b : Byte} {rel : Word → Word → Bool}
    (hi : i.regBytes = [rs1, rs2]) (h : i.firstBadReg = some b) :
    s.compare rs1 rs2 rel = s.setStatus .badRegister b := by
  rcases compare_cases s rs1 rs2 rel with ⟨h1, h2, _⟩ | ⟨h1, e⟩ | ⟨h1, h2, e⟩
  · simp [Instr.firstBadReg, hi, namesRegister_of_lt h1, namesRegister_of_lt h2] at h
  · obtain rfl : rs1 = b := by simpa [Instr.firstBadReg, hi, namesRegister_of_le h1] using h
    exact e
  · obtain rfl : rs2 = b := by
      simpa [Instr.firstBadReg, hi, namesRegister_of_lt h1, namesRegister_of_le h2] using h
    exact e

theorem withRRR_of_firstBadReg {i : Instr} {s : State} {rs1 rs2 rd b : Byte} {k : Word → Word → Fin 32 → State}
    (hi : i.regBytes = [rs1, rs2, rd]) (h : i.firstBadReg = some b) :
    s.withRRR rs1 rs2 rd k = s.setStatus .badRegister b := by
  rcases withRRR_cases s rs1 rs2 rd k with ⟨h1, h2, h3, _⟩ | ⟨h1, e⟩ | ⟨h1, h2, e⟩ | ⟨h1, h2, h3, e⟩
  · simp [Instr.firstBadReg, hi, namesRegister_of_lt h1, namesRegister_of_lt h2, namesRegister_of_lt h3] at h
  · obtain rfl : rs1 = b := by simpa [Instr.firstBadReg, hi, namesRegister_of_le h1] using h
    exact e
  · obtain rfl : rs2 = b := by
      simpa [Instr.firstBadReg, hi, namesRegister_of_lt h1, namesRegister_of_le h2] using h
    exact e
  · obtain rfl : rd = b := by
      simpa [Instr.firstBadReg, hi, namesRegister_of_lt h1, namesRegister_of_lt h2, namesRegister_of_le h3] using h
    exact e

/-- Every instruction checks its register-index bytes, in encoding order, before it does anything else. -/
theorem exec_of_firstBadReg {i : Instr} {s : State} {b : Byte} (h : i.firstBadReg = some b) :
    exec i s = .next (s.setStatus .badRegister b) := by
  cases i with
  | hlt => cases h
  | load | jmp | jmpf | jmpb | jeq | jneq => exact congrArg _ (withReg_of_firstBadReg rfl h)
  | add | sub | mul | div => exact congrArg _ (withRRR_of_firstBadReg rfl h)
  | eq | neq | gt | lt | gtq | ltq => exact congrArg _ (compare_of_firstBadReg rfl h)

/-- Settles O15: the meaning of an instruction with a bad index, and the step that runs it. -/
theorem badRegisterStops : Obligations.BadRegisterStops :=
  ⟨fun _ _ _ h => exec_of_firstBadReg h, fun _ _ _ hrun hold h =>
    hostStep_of_step ((stepWith_of_holdsAtPc hrun hold).trans (exec_of_firstBadReg h))⟩

/-! ## LOAD, the arithmetic, HLT -/

/-- Settles O18: the index check passes, and the rest is LOAD's own write. -/
theorem loadResult : Obligations.LoadResult :=
  fun _ _ s h => congrArg _ (withReg_of_lt s _ h)

/-- Settles O19: the index checks pass, and the three operations act on the signed values. -/
theorem addSubMulResult : Obligations.AddSubMulResult :=
  fun _ _ _ _ h1 h2 h3 =>
    ⟨congrArg _ (withRRR_of_lt h1 h2 h3 _), congrArg _ (withRRR_of_lt h1 h2 h3 _),
      congrArg _ (withRRR_of_lt h1 h2 h3 _)⟩

/-- DIV on registers that exist is the division of their values. -/
theorem exec_div_of_lt {s : State} {rs1 rs2 rd : Byte} (h1 : rs1.toNat < 32) (h2 : rs2.toNat < 32)
    (h3 : rd.toNat < 32) :
    exec (.div rs1 rs2 rd) s = .next (s.divide s.x[rs1.toNat] s.x[rs2.toNat] ⟨rd.toNat, h3⟩) :=
  congrArg _ (withRRR_of_lt h1 h2 h3 _)

theorem divide_by_zero (s : State) (a : Word) (d : Fin 32) :
    s.divide a 0#32 d = s.setStatus .divByZero 0#8 := if_pos rfl

theorem divide_overflow (s : State) (d : Fin 32) :
    s.divide 0x80000000#32 0xFFFFFFFF#32 d = s.setStatus .divOverflow 0#8 := rfl

/-- A division that does not fault writes the truncated quotient and the remainder (R123). -/
theorem divide_completes {s : State} {a b : Word} {d : Fin 32} (h0 : b ≠ 0#32)
    (hov : ¬(a = 0x80000000#32 ∧ b = 0xFFFFFFFF#32)) :
    s.divide a b d = ((s.setReg d (BitVec.ofInt 32 (Int.tdiv a.toInt b.toInt))).setRem
      (BitVec.ofInt 32 (Int.tmod a.toInt b.toInt))).setPc (s.pc + 4) := by
  rcases divide_cases s a b d with ⟨zero, _⟩ | ⟨hmin, hneg, _⟩ | ⟨_, _, e⟩
  · exact absurd zero h0
  · exact absurd ⟨hmin, hneg⟩ hov
  · exact e

/-- Settles O20: the index checks pass, and the division is one that completes. -/
theorem divResult : Obligations.DivResult := by
  intro rs1 rs2 rd s h1 h2 h3 h0 hov
  rw [exec_div_of_lt h1 h2 h3, divide_completes h0 hov]
  rfl

/-- Settles O21: the index checks pass, and the division takes the fault of its operands. -/
theorem divFaults : Obligations.DivFaults := by
  intro rs1 rs2 rd s h1 h2 h3
  rw [exec_div_of_lt h1 h2 h3]
  refine ⟨fun h0 => ?_, fun hmin hneg => ?_⟩
  · rw [h0, divide_by_zero]
    rfl
  · rw [hmin, hneg, divide_overflow]
    rfl

/-- Settles O22: HLT has no operand to check. -/
theorem hltResult : Obligations.HltResult := exec_hlt

/-! ## Jumps -/

theorem jumpTo_of_neg {s : State} {t : Int} (h : t < 0) : s.jumpTo t = s.setStatus .jumpUnderflow 0#8 := if_pos h

section
variable {s : State} {r : Byte} (f : Option Half) (h : r.toNat < 32)
include h

theorem exec_jmp_of_lt : exec (.jmp r) s = .next (s.jumpTo s.x[r.toNat].toInt) :=
  congrArg _ (withReg_of_lt s _ h)

theorem exec_jmpf_of_lt : exec (.jmpf r) s = .next (s.jumpTo ((s.pc : Int) + 2 + s.x[r.toNat].toInt)) :=
  congrArg _ (withReg_of_lt s _ h)

theorem exec_jmpb_of_lt : exec (.jmpb r) s = .next (s.jumpTo ((s.pc : Int) + 2 - s.x[r.toNat].toInt)) :=
  congrArg _ (withReg_of_lt s _ h)

theorem exec_jeq_of_taken (heq : s.eq = true) : exec (.jeq r f) s = .next (s.jumpTo s.x[r.toNat].toInt) :=
  congrArg _ (branch_of_taken h heq)

theorem exec_jeq_of_not_taken (heq : s.eq = false) : exec (.jeq r f) s = .next (s.setPc (s.pc + 4)) :=
  congrArg _ (branch_of_not_taken h heq)

theorem exec_jneq_of_taken (heq : s.eq = false) : exec (.jneq r f) s = .next (s.jumpTo s.x[r.toNat].toInt) :=
  congrArg _ (branch_of_taken h (by rw [heq, Bool.not_false]))

theorem exec_jneq_of_not_taken (heq : s.eq = true) : exec (.jneq r f) s = .next (s.setPc (s.pc + 4)) :=
  congrArg _ (branch_of_not_taken h (by rw [heq, Bool.not_true]))

end

/-- Settles O23: a target that is a natural number passes the target check. -/
theorem jumpResult : Obligations.JumpResult := by
  intro r s h target
  rw [exec_jmp_of_lt h, exec_jmpf_of_lt h, exec_jmpb_of_lt h]
  exact ⟨fun ht => congrArg _ (jumpTo_natCast s ht), fun ht => congrArg _ (jumpTo_natCast s ht),
    fun ht => congrArg _ (jumpTo_natCast s ht)⟩

/-- Settles O24: a target below 0 fails the target check, which all five jumps share. -/
theorem jumpUnderflowFaults : Obligations.JumpUnderflowFaults := by
  intro r s f h
  rw [exec_jmp_of_lt h, exec_jmpf_of_lt h, exec_jmpb_of_lt h]
  refine ⟨fun ht => congrArg _ (jumpTo_of_neg ht), fun ht => congrArg _ (jumpTo_of_neg ht),
    fun ht => congrArg _ (jumpTo_of_neg ht), fun heq ht => ?_, fun heq ht => ?_⟩
  · exact (exec_jeq_of_taken f h heq).trans (congrArg _ (jumpTo_of_neg ht))
  · exact (exec_jneq_of_taken f h heq).trans (congrArg _ (jumpTo_of_neg ht))

/-- Settles O26: a taken branch passes the target check, one that is not taken has none. -/
theorem branchResult : Obligations.BranchResult :=
  fun _ f s h _ =>
    ⟨fun heq ht => (exec_jeq_of_taken f h heq).trans (congrArg _ (jumpTo_natCast s ht)),
      exec_jeq_of_not_taken f h,
      fun heq ht => (exec_jneq_of_taken f h heq).trans (congrArg _ (jumpTo_natCast s ht)),
      exec_jneq_of_not_taken f h⟩

/-! ## Comparisons -/

/-- Settles O25: the six comparisons share one meaning and differ in the relation. -/
theorem compareResult : Obligations.CompareResult :=
  fun _ _ _ _ h1 h2 =>
    ⟨congrArg _ (compare_of_lt h1 h2 relEq), congrArg _ (compare_of_lt h1 h2 relNeq),
      congrArg _ (compare_of_lt h1 h2 relGt), congrArg _ (compare_of_lt h1 h2 relLt),
      congrArg _ (compare_of_lt h1 h2 relGtq), congrArg _ (compare_of_lt h1 h2 relLtq)⟩

/-- Settles O27: the meanings do not take the filler as an argument. -/
theorem fillerHasNoEffect : Obligations.FillerHasNoEffect :=
  fun _ _ _ _ _ _ _ _ => ⟨rfl, rfl, rfl, rfl, rfl, rfl, rfl, rfl⟩

end Sys2Proof.Machine
end

section
/-! PROOFS. Whole instructions from the bytes of the program: TRUNCATED before the operands are read, BAD_REGISTER before the
values are used, then what the meaning does with registers that exist (60_exceptions.md R214). -/

namespace Sys2Proof.Machine

/-! ## The faults that instructions share -/

theorem step_truncated {s : State} {op : Op} (hrun : s.status.cause = .running)
    (hread : s.prog.read s.pc = .ok (Config.opcodeMap.byteOf op)) (hlen : s.prog.len < s.pc + op.length s.eq) :
    step s = .next { s with status := ⟨.truncated, 0#8⟩ } :=
  stepWith_of_truncated hrun hread (decodeOp_byteOf _ op) hlen

theorem step_badRegister {s : State} {i : Instr} {b : Byte} (hrun : s.status.cause = .running)
    (hold : s.HoldsAtPc Config.opcodeMap i) (h : i.firstBadReg = some b) :
    step s = .next { s with status := ⟨.badRegister, b⟩ } :=
  (stepWith_of_holdsAtPc hrun hold).trans (exec_of_firstBadReg h)

/-- A step at an instruction with one register operand: the check of it, then the instruction's own work `k`. -/
theorem step_withReg {s : State} {i : Instr} {r : Byte} {k : Fin 32 → State} (hrun : s.status.cause = .running)
    (hold : s.HoldsAtPc Config.opcodeMap i) (hexec : exec i s = .next (s.withReg r k)) :
    (32 ≤ r.toNat → step s = .next { s with status := ⟨.badRegister, r⟩ }) ∧
    (∀ h : r.toNat < 32, step s = .next (k ⟨r.toNat, h⟩)) := by
  have hstep : step s = .next (s.withReg r k) := (stepWith_of_holdsAtPc hrun hold).trans hexec
  exact ⟨fun h => hstep.trans (congrArg _ (withReg_of_le s k h)),
    fun h => hstep.trans (congrArg _ (withReg_of_lt s k h))⟩

/-- A step at a comparison: the checks of its two operands, then the relation of their values. -/
theorem step_compare {s : State} {i : Instr} {rs1 rs2 : Byte} {rel : Word → Word → Bool}
    (hrun : s.status.cause = .running) (hold : s.HoldsAtPc Config.opcodeMap i) (hregs : i.regBytes = [rs1, rs2])
    (hexec : exec i s = .next (s.compare rs1 rs2 rel)) :
    (32 ≤ rs1.toNat → step s = .next { s with status := ⟨.badRegister, rs1⟩ }) ∧
    (rs1.toNat < 32 → 32 ≤ rs2.toNat → step s = .next { s with status := ⟨.badRegister, rs2⟩ }) ∧
    (∀ (_ : rs1.toNat < 32) (_ : rs2.toNat < 32), step s = .next { s with
      eq := rel s.x[rs1.toNat] s.x[rs2.toNat], pc := s.pc + 4 }) := by
  refine ⟨fun h1 => ?_, fun h1 h2 => ?_, fun h1 h2 => ?_⟩
  · exact step_badRegister hrun hold (by simp [Instr.firstBadReg, hregs, namesRegister_of_le h1])
  · exact step_badRegister hrun hold
      (by simp [Instr.firstBadReg, hregs, namesRegister_of_lt h1, namesRegister_of_le h2])
  · exact ((stepWith_of_holdsAtPc hrun hold).trans hexec).trans (congrArg _ (compare_of_lt h1 h2 rel))

/-- A step at an instruction with three register operands: the checks of them, then the instruction's own work `k`. -/
theorem step_withRRR {s : State} {i : Instr} {rs1 rs2 rd : Byte} {k : Word → Word → Fin 32 → State}
    (hrun : s.status.cause = .running) (hold : s.HoldsAtPc Config.opcodeMap i)
    (hregs : i.regBytes = [rs1, rs2, rd]) (hexec : exec i s = .next (s.withRRR rs1 rs2 rd k)) :
    (32 ≤ rs1.toNat → step s = .next { s with status := ⟨.badRegister, rs1⟩ }) ∧
    (rs1.toNat < 32 → 32 ≤ rs2.toNat → step s = .next { s with status := ⟨.badRegister, rs2⟩ }) ∧
    (rs1.toNat < 32 → rs2.toNat < 32 → 32 ≤ rd.toNat → step s = .next { s with status := ⟨.badRegister, rd⟩ }) ∧
    (∀ (_ : rs1.toNat < 32) (_ : rs2.toNat < 32) (h3 : rd.toNat < 32),
      step s = .next (k s.x[rs1.toNat] s.x[rs2.toNat] ⟨rd.toNat, h3⟩)) := by
  refine ⟨fun h1 => ?_, fun h1 h2 => ?_, fun h1 h2 h3 => ?_, fun h1 h2 h3 => ?_⟩
  · exact step_badRegister hrun hold (by simp [Instr.firstBadReg, hregs, namesRegister_of_le h1])
  · exact step_badRegister hrun hold
      (by simp [Instr.firstBadReg, hregs, namesRegister_of_lt h1, namesRegister_of_le h2])
  · exact step_badRegister hrun hold
      (by simp [Instr.firstBadReg, hregs, namesRegister_of_lt h1, namesRegister_of_lt h2, namesRegister_of_le h3])
  · exact ((stepWith_of_holdsAtPc hrun hold).trans hexec).trans (congrArg _ (withRRR_of_lt h1 h2 h3 k))

/-! ## LOAD -/

/-- LOAD is held at `pc` where its opcode byte, index byte and the two immediate bytes are read. -/
theorem holdsAtPc_load {m : OpcodeMap} {s : State} {r b2 b3 : Byte} (h0 : s.prog.read s.pc = .ok (m.byteOf .load))
    (h1 : s.prog.read (s.pc + 1) = .ok r) (h2 : s.prog.read (s.pc + 2) = .ok b2)
    (h3 : s.prog.read (s.pc + 3) = .ok b3) : s.HoldsAtPc m (.load r (half b2 b3)) :=
  holdsAtPc_of_read4 rfl (by simp [encode, Instr.op, operandBytes]) h0 h1 h2 h3

/-- Settles O32: the faults and the result from the shared check of one register, the source's property by running it. -/
theorem loadInstruction : Obligations.LoadInstruction :=
  ⟨fun _ hrun hread => ⟨step_truncated (op := .load) hrun hread,
    fun _ _ _ h1 h2 h3 => step_withReg hrun (holdsAtPc_load hread h1 h2 h3) rfl⟩, rfl⟩

/-! ## The arithmetic -/

/-- Settles O33: the three instructions share their checks and differ in the operation on the values. -/
theorem addSubMulInstruction : Obligations.AddSubMulInstruction := by
  rintro s op f hrun (⟨rfl, rfl⟩ | ⟨rfl, rfl⟩ | ⟨rfl, rfl⟩) hread <;>
    refine ⟨step_truncated hrun hread, fun rs1 rs2 rd h1 h2 h3 => ?_⟩
  · exact step_withRRR (i := .add rs1 rs2 rd) hrun (holdsAtPc_of_read4 rfl rfl hread h1 h2 h3) rfl rfl
  · exact step_withRRR (i := .sub rs1 rs2 rd) hrun (holdsAtPc_of_read4 rfl rfl hread h1 h2 h3) rfl rfl
  · exact step_withRRR (i := .mul rs1 rs2 rd) hrun (holdsAtPc_of_read4 rfl rfl hread h1 h2 h3) rfl rfl

/-- Settles O34: after the checks of the registers DIV is the division of the values, with its own two faults. -/
theorem divInstruction : Obligations.DivInstruction := by
  intro s hrun hread
  refine ⟨step_truncated (op := .div) hrun hread, fun rs1 rs2 rd h1 h2 h3 => ?_⟩
  obtain ⟨bad1, bad2, bad3, divides⟩ :=
    step_withRRR (i := .div rs1 rs2 rd) hrun (holdsAtPc_of_read4 rfl rfl hread h1 h2 h3) rfl rfl
  refine ⟨bad1, bad2, bad3, fun hr1 hr2 hrd => ?_⟩
  rw [divides hr1 hr2 hrd]
  refine ⟨fun h0 => ?_, fun hmin hneg => ?_, fun h0 hov => congrArg _ (divide_completes h0 hov)⟩
  · rw [h0, divide_by_zero]
    rfl
  · rw [hmin, hneg, divide_overflow]
    rfl

/-! ## The comparisons -/

theorem relEq_eq (a b : Word) : relEq a b = (decide (a = b) == true) := by simp [relEq, sval, BitVec.toInt_inj]

theorem relNeq_eq (a b : Word) : relNeq a b = (decide (a = b) == false) := by simp [relNeq, sval, BitVec.toInt_inj]

/-- Settles O37: patterns are equal exactly when their signed values are. -/
theorem eqNeqInstruction : Obligations.EqNeqInstruction := by
  rintro s op want hrun (⟨rfl, rfl⟩ | ⟨rfl, rfl⟩) hread <;>
    refine ⟨step_truncated hrun hread, fun rs1 rs2 filler h1 h2 h3 => ?_⟩
  · simp only [← relEq_eq]
    exact step_compare (i := .eq rs1 rs2 filler) hrun (holdsAtPc_of_read4 rfl rfl hread h1 h2 h3) rfl rfl
  · simp only [← relNeq_eq]
    exact step_compare (i := .neq rs1 rs2 filler) hrun (holdsAtPc_of_read4 rfl rfl hread h1 h2 h3) rfl rfl

/-- Settles O38: the four instructions share their checks and differ in the order relation of the signed values. -/
theorem orderInstruction : Obligations.OrderInstruction := by
  rintro s op f hrun (⟨rfl, rfl⟩ | ⟨rfl, rfl⟩ | ⟨rfl, rfl⟩ | ⟨rfl, rfl⟩) hread <;>
    refine ⟨step_truncated hrun hread, fun rs1 rs2 filler h1 h2 h3 => ?_⟩
  · exact step_compare (i := .gt rs1 rs2 filler) hrun (holdsAtPc_of_read4 rfl rfl hread h1 h2 h3) rfl rfl
  · exact step_compare (i := .lt rs1 rs2 filler) hrun (holdsAtPc_of_read4 rfl rfl hread h1 h2 h3) rfl rfl
  · exact step_compare (i := .gtq rs1 rs2 filler) hrun (holdsAtPc_of_read4 rfl rfl hread h1 h2 h3) rfl rfl
  · exact step_compare (i := .ltq rs1 rs2 filler) hrun (holdsAtPc_of_read4 rfl rfl hread h1 h2 h3) rfl rfl

/-! ## The jumps -/

/-- A step at a jump that is taken: the check of its register, then the check of its target `f` of the value. -/
theorem step_jump {s : State} {i : Instr} {r : Byte} (f : Int → Int) (hrun : s.status.cause = .running)
    (hold : s.HoldsAtPc Config.opcodeMap i)
    (hexec : exec i s = .next (s.withReg r fun j => s.jumpTo (f (s.reg j).toInt))) :
    (32 ≤ r.toNat → step s = .next { s with status := ⟨.badRegister, r⟩ }) ∧
    (∀ _ : r.toNat < 32,
      (f s.x[r.toNat].toInt < 0 → step s = .next { s with status := ⟨.jumpUnderflow, 0#8⟩ }) ∧
      (∀ target : Nat, f s.x[r.toNat].toInt = target → step s = .next { s with pc := target })) := by
  obtain ⟨bad, jumps⟩ := step_withReg hrun hold hexec
  exact ⟨bad, fun h => ⟨fun ht => (jumps h).trans (congrArg _ (jumpTo_of_neg ht)),
    fun target ht => (jumps h).trans (congrArg _ (jumpTo_natCast s ht.symm))⟩⟩

/-- Settles O36: the three jumps share their checks and differ in the target. -/
theorem jumpInstruction : Obligations.JumpInstruction := by
  rintro s op f hrun (⟨rfl, rfl⟩ | ⟨rfl, rfl⟩ | ⟨rfl, rfl⟩) hread <;>
    refine ⟨step_truncated hrun hread, fun r h1 => ?_⟩
  · exact step_jump (i := .jmp r) (fun v => v) hrun (holdsAtPc_of_read2 rfl rfl hread h1) rfl
  · exact step_jump (i := .jmpf r) (fun v => (s.pc : Int) + 2 + v) hrun (holdsAtPc_of_read2 rfl rfl hread h1) rfl
  · exact step_jump (i := .jmpb r) (fun v => (s.pc : Int) + 2 - v) hrun (holdsAtPc_of_read2 rfl rfl hread h1) rfl

/-! ## The conditional jumps -/

/-- A conditional jump is held at `pc` in one of its forms: the short one where it is taken, the long one where there are
4 bytes. -/
theorem exists_filler_holdsAtPc {m : OpcodeMap} {s : State} {op : Op} {r : Byte} {form : Option Half → Instr}
    {taken : Bool} (hshort : encode m (form none) = [m.byteOf op, r])
    (hlong : ∀ f, encode m (form (some f)) = [m.byteOf op, r, hiByte f, loByte f])
    (hfits : ∀ f, (form f).fitsFlag s.eq = (f.isNone == taken)) (h0 : s.prog.read s.pc = .ok (m.byteOf op))
    (h1 : s.prog.read (s.pc + 1) = .ok r) (hbytes : taken = true ∨ s.pc + 4 ≤ s.prog.len) :
    ∃ f, s.HoldsAtPc m (form f) := by
  cases taken with
  | true => exact ⟨none, holdsAtPc_of_read2 (hfits none) hshort h0 h1⟩
  | false =>
    have h4 : s.pc + 4 ≤ s.prog.len := by simpa using hbytes
    have h2 := read_of_lt (show s.pc + 2 < s.prog.len by omega)
    have h3 := read_of_lt (show s.pc + 3 < s.prog.len by omega)
    exact ⟨some (half _ _), holdsAtPc_of_read4 (hfits _) (by rw [hlong, hiByte_half, loByte_half]) h0 h1 h2 h3⟩

/-- The step at JEQ and at JNEQ, whose meanings are one up to the flag value on which they are taken. -/
theorem step_branch {s : State} {op : Op} {taken : Bool} {r : Byte} (hrun : s.status.cause = .running)
    (hop : (op = .jeq ∧ taken = s.eq) ∨ (op = .jneq ∧ taken = !s.eq))
    (h0 : s.prog.read s.pc = .ok (Config.opcodeMap.byteOf op)) (h1 : s.prog.read (s.pc + 1) = .ok r)
    (hbytes : taken = true ∨ s.pc + 4 ≤ s.prog.len) : step s = .next (s.branch r taken) := by
  rcases hop with ⟨rfl, rfl⟩ | ⟨rfl, rfl⟩
  · obtain ⟨f, hold⟩ := exists_filler_holdsAtPc (form := .jeq r) rfl (fun _ => rfl) (fun _ => rfl) h0 h1 hbytes
    exact stepWith_of_holdsAtPc hrun hold
  · have hfits (f : Option Half) : (Instr.jneq r f).fitsFlag s.eq = (f.isNone == !s.eq) := by
      cases f <;> cases s.eq <;> rfl
    obtain ⟨f, hold⟩ := exists_filler_holdsAtPc (form := .jneq r) rfl (fun _ => rfl) hfits h0 h1 hbytes
    exact stepWith_of_holdsAtPc hrun hold

/-- A taken conditional jump is 2 bytes long, one that is not taken 4 (R78, R190). -/
theorem branch_length {op : Op} {taken eq : Bool} (hop : (op = .jeq ∧ taken = eq) ∨ (op = .jneq ∧ taken = !eq)) :
    op.length eq = if taken then 2 else 4 := by
  rcases hop with ⟨rfl, rfl⟩ | ⟨rfl, rfl⟩
  · rfl
  · cases eq <;> rfl

/-- Settles O39: `step_branch` once the bytes of the path taken are there, TRUNCATED before. -/
theorem branchInstruction : Obligations.BranchInstruction := by
  intro s op taken hrun hop hread
  have hlen := branch_length hop
  refine ⟨fun ht h => ?_, fun ht h => ?_, fun r hr => ⟨fun h hbytes => ?_, fun h => ⟨fun ht hneg => ?_,
    fun target ht htarget => ?_, fun ht hbytes => ?_⟩⟩⟩
  · exact step_truncated hrun hread (by simpa [hlen, ht] using h)
  · exact step_truncated hrun hread (by simpa [hlen, ht] using h)
  · exact (step_branch hrun hop hread hr hbytes).trans (congrArg _ (withReg_of_le s _ h))
  · rw [step_branch hrun hop hread hr (.inl ht), branch_of_taken h ht, jumpTo_of_neg hneg]
    rfl
  · rw [step_branch hrun hop hread hr (.inl ht), branch_of_taken h ht, jumpTo_natCast s htarget.symm]
    rfl
  · rw [step_branch hrun hop hread hr (.inr hbytes), branch_of_not_taken h ht]
    rfl

end Sys2Proof.Machine
end

section
/-! PROOFS. Laws of the arithmetic, the comparisons and LOAD's immediate (41_arithmetic.md, 44_compare.md, 40_load.md). -/

namespace Sys2Proof.Machine

/-! ## Patterns read signed or unsigned -/

/-- The sum of the signed values and of the unsigned ones have the same 32-bit pattern. -/
theorem ofInt_toInt_add (a b : Word) : BitVec.ofInt 32 (a.toInt + b.toInt) = BitVec.ofNat 32 (a.toNat + b.toNat) := by
  simp only [BitVec.ofInt_add, BitVec.ofInt_toInt, BitVec.ofNat_add, BitVec.ofNat_toNat, BitVec.setWidth_eq]

theorem ofInt_toInt_mul (a b : Word) : BitVec.ofInt 32 (a.toInt * b.toInt) = BitVec.ofNat 32 (a.toNat * b.toNat) := by
  simp only [BitVec.ofInt_mul, BitVec.ofInt_toInt, BitVec.ofNat_mul, BitVec.ofNat_toNat, BitVec.setWidth_eq]

theorem ofInt_toInt_sub (a b : Word) :
    BitVec.ofInt 32 (a.toInt - b.toInt) = BitVec.ofInt 32 ((a.toNat : Int) - b.toNat) := by
  rw [← BitVec.toInt_inj, BitVec.toInt_ofInt, BitVec.toInt_ofInt, BitVec.toInt_eq_toNat_bmod,
    BitVec.toInt_eq_toNat_bmod, Int.bmod_sub_bmod, Int.sub_bmod_bmod]

/-- Settles O29: the results of O19, with the signed reading replaced by the unsigned one. -/
theorem wrappingArithmeticIsUnsignedToo : Obligations.WrappingArithmeticIsUnsignedToo := by
  intro rs1 rs2 rd s h1 h2 h3
  rw [← ofInt_toInt_add, ← ofInt_toInt_mul, ← ofInt_toInt_sub]
  exact addSubMulResult rs1 rs2 rd s h1 h2 h3

/-! ## Division -/

/-- The quotient is a 32-bit signed value, but for INT_MIN by -1. -/
theorem toInt_ofInt_tdiv {a b : Word} (hov : ¬(a = 0x80000000#32 ∧ b = 0xFFFFFFFF#32)) :
    (BitVec.ofInt 32 (Int.tdiv a.toInt b.toInt)).toInt = Int.tdiv a.toInt b.toInt := by
  rw [BitVec.toInt_ofInt, ← BitVec.toInt_sdiv]
  exact BitVec.toInt_sdiv_of_ne_or_ne a b (not_and_or.mp hov)

/-- The remainder is a 32-bit signed value. -/
theorem toInt_ofInt_tmod (a b : Word) :
    (BitVec.ofInt 32 (Int.tmod a.toInt b.toInt)).toInt = Int.tmod a.toInt b.toInt := by
  rw [← BitVec.toInt_srem, BitVec.ofInt_toInt]

theorem natAbs_tmod_lt {a d : Int} (h : d ≠ 0) : (Int.tmod a d).natAbs < d.natAbs := by
  rw [Int.natAbs_tmod]
  exact Nat.mod_lt _ (Int.natAbs_pos.mpr h)

theorem tmod_nonpos {a : Int} (d : Int) (h : a ≤ 0) : Int.tmod a d ≤ 0 := by
  have := Int.tmod_nonneg d (Int.neg_nonneg_of_nonpos h)
  rw [Int.neg_tmod] at this
  omega

/-- Settles O28: both results of DIV are the exact ones, so the law is that of truncated division of integers. -/
theorem divisionLaw : Obligations.DivisionLaw := by
  intro rs1 rs2 rd s t h1 h2 h3 h0 hov h
  cases (divResult rs1 rs2 rd s h1 h2 h3 h0 hov).symm.trans h
  simp only [Vector.getElem_set_self, toInt_ofInt_tdiv hov, toInt_ofInt_tmod]
  exact ⟨(Int.tdiv_mul_add_tmod _ _).symm, natAbs_tmod_lt fun hz => h0 ((toInt_eq_zero_iff _).mp hz),
    Int.tmod_nonneg _, tmod_nonpos _⟩

/-! ## Comparisons -/

/-- Settles O30: the six flags of O25 are relations of one pair of integers, and those are a linear order. -/
theorem comparisonsComplement : Obligations.ComparisonsComplement := by
  intro rs1 rs2 f s a b c d e g h1 h2 ha hb hc hd he hg
  obtain ⟨eqStep, neqStep, gtStep, ltStep, gtqStep, ltqStep⟩ := compareResult rs1 rs2 f s h1 h2
  cases eqStep.symm.trans ha
  cases neqStep.symm.trans hb
  cases gtStep.symm.trans hc
  cases ltStep.symm.trans hd
  cases gtqStep.symm.trans he
  cases ltqStep.symm.trans hg
  refine ⟨decide_not, ?_, ?_, ?_, ?_⟩
  · rw [← decide_not, decide_eq_decide]
    exact Int.not_lt.symm
  · rw [← decide_not, decide_eq_decide]
    exact Int.not_lt.symm
  · rw [← Bool.decide_or, decide_eq_decide]
    omega
  · rintro rfl
    simp

/-! ## LOAD's immediate -/

theorem toNat_zeroExtend_half (b2 b3 : Byte) :
    ((half b2 b3).zeroExtend 32).toNat = 256 * b2.toNat + b3.toNat := by
  rw [BitVec.zeroExtend, BitVec.toNat_setWidth_of_le (by decide), half_toNat]

/-- Settles O31: the zero-extended immediate has its top bits clear, so both readings are those of its two bytes. -/
theorem loadImmediateBigEndian : Obligations.LoadImmediateBigEndian := by
  intro s t r b2 b3 h hrun hread hstep
  have hold : s.HoldsAtPc Config.opcodeMap (.load r (half b2 b3)) :=
    ⟨rfl, by simpa [encode, Instr.op, operandBytes] using hread⟩
  cases ((stepWith_of_holdsAtPc hrun hold).trans (loadResult r _ s h)).symm.trans hstep
  have hval := toNat_zeroExtend_half b2 b3
  have hb2 := b2.isLt
  have hb3 := b3.isLt
  simp only [Vector.getElem_set_self]
  refine ⟨hval, ?_, by omega⟩
  rw [BitVec.toInt_eq_toNat_of_lt (by omega), hval]
  rfl

end Sys2Proof.Machine
end

section
/-! PROOFS. The stops (60_exceptions.md): what a fault leaves unchanged, and which cause a step ends with. -/

namespace Sys2Proof.Machine

/-! ## Faults are precise -/

/-- An instruction of a running core that ends in a fault wrote STATUS alone. -/
theorem Effect.eq_setStatus_of_isFault {i : Instr} {s t : State} (h : Effect i s t)
    (hrun : s.status.cause = .running) (hfault : t.status.cause.isFault = true) :
    t.status.cause ≠ .illegalOpcode ∧ t = s.setStatus t.status.cause t.status.info := by
  cases h with
  | fault c info hc _ => exact ⟨by rintro rfl; simp at hc, rfl⟩
  | halt _ => cases hfault
  | reg | div | flag | jump =>
    replace hfault : s.status.cause.isFault = true := hfault
    rw [hrun] at hfault
    cases hfault

/-- Settles O16: of the stops before execution only ILLEGAL_OPCODE writes more than STATUS, and the faults of an instruction
write STATUS alone. -/
theorem faultsArePrecise : Obligations.FaultsArePrecise := by
  intro s t hrun hstep hfault
  have hhost : hostStep s = .next (t, true) := by
    rw [hostStep_of_step hstep, (halted_iff t).mpr fun h => by rw [h] at hfault; cases hfault]
  rcases stepWith_running_cases (m := Config.opcodeMap) hrun with ⟨_, ended⟩ | ⟨b, _, _, illegal⟩ |
    ⟨_, _, _, _, _, truncated⟩ | ⟨i, _, executed⟩
  · cases ended.symm.trans hstep
    cases hfault
  · cases illegal.symm.trans hstep
    exact ⟨rfl, rfl, rfl, rfl, rfl, hhost⟩
  · cases truncated.symm.trans hstep
    exact ⟨rfl, rfl, rfl, rfl, rfl, hhost⟩
  · obtain ⟨hcause, ht⟩ := (effect_of_exec (executed.symm.trans hstep)).eq_setStatus_of_isFault hrun hfault
    rw [if_neg hcause]
    generalize t.status.cause = c at ht
    generalize t.status.info = info at ht
    subst ht
    exact ⟨rfl, rfl, rfl, rfl, rfl, hhost⟩

/-! ## The condition of each stop -/

/-- The program holds at `pc` a jump that goes to a target below 0 (R151), the conditional ones in their taken form. -/
def State.JumpsBelowZero (s : State) : Prop :=
  ∃ (r : Byte) (_ : r.toNat < 32),
    (s.HoldsAtPc Config.opcodeMap (.jmp r) ∧ s.x[r.toNat].toInt < 0) ∨
    (s.HoldsAtPc Config.opcodeMap (.jmpf r) ∧ (s.pc : Int) + 2 + s.x[r.toNat].toInt < 0) ∨
    (s.HoldsAtPc Config.opcodeMap (.jmpb r) ∧ (s.pc : Int) + 2 - s.x[r.toNat].toInt < 0) ∨
    (s.HoldsAtPc Config.opcodeMap (.jeq r none) ∧ s.x[r.toNat].toInt < 0) ∨
    (s.HoldsAtPc Config.opcodeMap (.jneq r none) ∧ s.x[r.toNat].toInt < 0)

/-- When a step of a running core ends with a cause (R212): the condition on the state before it. -/
def State.StopsWith (s : State) : Cause → Prop
  | .running => False
  | .halt => s.HoldsAtPc Config.opcodeMap .hlt
  | .endOfProgram => s.prog.len ≤ s.pc
  | .illegalOpcode => ∃ b, s.prog.read s.pc = .ok b ∧ decodeOp Config.opcodeMap b = none
  | .truncated => ∃ b op, s.prog.read s.pc = .ok b ∧ decodeOp Config.opcodeMap b = some op ∧
      s.prog.len < s.pc + op.length s.eq
  | .badRegister => ∃ i : Instr, s.HoldsAtPc Config.opcodeMap i ∧ i.wellFormed = false
  | .divByZero => ∃ (rs1 rs2 rd : Byte) (_ : rs1.toNat < 32) (_ : rs2.toNat < 32) (_ : rd.toNat < 32),
      s.HoldsAtPc Config.opcodeMap (.div rs1 rs2 rd) ∧ s.x[rs2.toNat] = 0#32
  | .divOverflow => ∃ (rs1 rs2 rd : Byte) (_ : rs1.toNat < 32) (_ : rs2.toNat < 32) (_ : rd.toNat < 32),
      s.HoldsAtPc Config.opcodeMap (.div rs1 rs2 rd) ∧
      s.x[rs1.toNat] = 0x80000000#32 ∧ s.x[rs2.toNat] = 0xFFFFFFFF#32
  | .jumpUnderflow => s.JumpsBelowZero

theorem exists_firstBadReg {i : Instr} (h : i.wellFormed = false) : ∃ b, i.firstBadReg = some b := by
  refine Option.ne_none_iff_exists'.mp fun hnone => ?_
  rw [firstBadReg_eq_none_iff, h] at hnone
  cases hnone

/-- A jump to a target below 0, held at `pc`, faults. -/
theorem step_of_jumpsBelowZero {s : State} (hrun : s.status.cause = .running) (h : s.JumpsBelowZero) :
    step s = .next (s.setStatus .jumpUnderflow 0#8) := by
  obtain ⟨r, hr, h⟩ := h
  obtain ⟨jmp, jmpf, jmpb, jeq, jneq⟩ := jumpUnderflowFaults r s none hr
  rcases h with ⟨hold, ht⟩ | ⟨hold, ht⟩ | ⟨hold, ht⟩ | ⟨hold, ht⟩ | ⟨hold, ht⟩
  · exact (stepWith_of_holdsAtPc hrun hold).trans (jmp ht)
  · exact (stepWith_of_holdsAtPc hrun hold).trans (jmpf ht)
  · exact (stepWith_of_holdsAtPc hrun hold).trans (jmpb ht)
  · have heq : s.eq = true := by simpa [Instr.fitsFlag] using hold.1
    exact (stepWith_of_holdsAtPc hrun hold).trans (jeq heq ht)
  · have heq : s.eq = false := by simpa [Instr.fitsFlag] using hold.1
    exact (stepWith_of_holdsAtPc hrun hold).trans (jneq heq ht)

/-- The condition of a cause makes the step end with it. -/
theorem cause_eq_of_stopsWith {s t : State} {c : Cause} (hrun : s.status.cause = .running) (hstep : step s = .next t)
    (h : s.StopsWith c) : t.status.cause = c := by
  cases c with
  | running => exact h.elim
  | halt =>
    cases ((stepWith_of_holdsAtPc hrun h).trans (hltResult s)).symm.trans hstep
    rfl
  | endOfProgram =>
    cases (stepWith_of_end hrun h).symm.trans hstep
    rfl
  | illegalOpcode =>
    obtain ⟨b, hread, hop⟩ := h
    cases (stepWith_of_illegal hrun hread hop).symm.trans hstep
    rfl
  | truncated =>
    obtain ⟨b, op, hread, hop, hlen⟩ := h
    cases (stepWith_of_truncated hrun hread hop hlen).symm.trans hstep
    rfl
  | badRegister =>
    obtain ⟨i, hold, hwf⟩ := h
    obtain ⟨b, hb⟩ := exists_firstBadReg hwf
    cases (step_badRegister hrun hold hb).symm.trans hstep
    rfl
  | divByZero =>
    obtain ⟨rs1, rs2, rd, h1, h2, h3, hold, hzero⟩ := h
    obtain ⟨byZero, _⟩ := divFaults rs1 rs2 rd s h1 h2 h3
    cases ((stepWith_of_holdsAtPc hrun hold).trans (byZero hzero)).symm.trans hstep
    rfl
  | divOverflow =>
    obtain ⟨rs1, rs2, rd, h1, h2, h3, hold, hmin, hneg⟩ := h
    obtain ⟨_, overflow⟩ := divFaults rs1 rs2 rd s h1 h2 h3
    cases ((stepWith_of_holdsAtPc hrun hold).trans (overflow hmin hneg)).symm.trans hstep
    rfl
  | jumpUnderflow =>
    cases (step_of_jumpsBelowZero hrun h).symm.trans hstep
    rfl

/-! ## No other stop -/

theorem lt_of_wellFormed {i : Instr} {r : Byte} (hi : i.regBytes = [r]) (h : i.wellFormed = true) :
    r.toNat < 32 := by
  simpa [Instr.wellFormed, hi, namesRegister] using h

theorem lt_of_wellFormed_two {i : Instr} {rs1 rs2 : Byte} (hi : i.regBytes = [rs1, rs2])
    (h : i.wellFormed = true) : rs1.toNat < 32 ∧ rs2.toNat < 32 := by
  simpa [Instr.wellFormed, hi, namesRegister] using h

theorem lt_of_wellFormed_three {i : Instr} {rs1 rs2 rd : Byte} (hi : i.regBytes = [rs1, rs2, rd])
    (h : i.wellFormed = true) : rs1.toNat < 32 ∧ rs2.toNat < 32 ∧ rd.toNat < 32 := by
  simpa [Instr.wellFormed, hi, namesRegister] using h

/-- A jump stops a running core only by a target below 0. -/
theorem stopsWith_of_jumpTo {s : State} {n : Int} (hrun : s.status.cause = .running)
    (hstop : (s.jumpTo n).status.cause ≠ .running) (h : n < 0 → s.JumpsBelowZero) :
    s.StopsWith (s.jumpTo n).status.cause := by
  rcases jumpTo_cases s n with ⟨hneg, e⟩ | ⟨_, e⟩
  · rw [e]
    exact h hneg
  · rw [e] at hstop
    exact absurd hrun hstop

/-- A division stops a running core only by one of its two faults. -/
theorem stopsWith_of_divide {s : State} {a b : Word} {d : Fin 32} (hrun : s.status.cause = .running)
    (hstop : (s.divide a b d).status.cause ≠ .running) (hzero : b = 0#32 → s.StopsWith .divByZero)
    (hov : a = 0x80000000#32 ∧ b = 0xFFFFFFFF#32 → s.StopsWith .divOverflow) :
    s.StopsWith (s.divide a b d).status.cause := by
  rcases divide_cases s a b d with ⟨h0, e⟩ | ⟨hmin, hneg, e⟩ | ⟨_, _, e⟩
  · rw [e]
    exact hzero h0
  · rw [e]
    exact hov ⟨hmin, hneg⟩
  · rw [e] at hstop
    exact absurd hrun hstop

/-- A well-formed instruction that stops a running core is HLT, a DIV or a jump, and meets the condition of its cause. -/
theorem stopsWith_of_exec {i : Instr} {s t : State} (hrun : s.status.cause = .running)
    (hold : s.HoldsAtPc Config.opcodeMap i) (hwf : i.wellFormed = true) (hexec : exec i s = .next t)
    (hstop : t.status.cause ≠ .running) : s.StopsWith t.status.cause := by
  cases i with
  | load r imm =>
    have hr := lt_of_wellFormed rfl hwf
    cases (loadResult r imm s hr).symm.trans hexec
    exact absurd hrun hstop
  | add rs1 rs2 rd | sub rs1 rs2 rd | mul rs1 rs2 rd =>
    obtain ⟨h1, h2, h3⟩ := lt_of_wellFormed_three rfl hwf
    cases (congrArg Host.Outcome.next (withRRR_of_lt h1 h2 h3 _)).symm.trans hexec
    exact absurd hrun hstop
  | eq rs1 rs2 | neq rs1 rs2 | gt rs1 rs2 | lt rs1 rs2 | gtq rs1 rs2 | ltq rs1 rs2 =>
    obtain ⟨h1, h2⟩ := lt_of_wellFormed_two rfl hwf
    cases (congrArg Host.Outcome.next (compare_of_lt h1 h2 _)).symm.trans hexec
    exact absurd hrun hstop
  | hlt =>
    cases (hltResult s).symm.trans hexec
    exact hold
  | div rs1 rs2 rd =>
    obtain ⟨h1, h2, h3⟩ := lt_of_wellFormed_three rfl hwf
    cases (exec_div_of_lt h1 h2 h3).symm.trans hexec
    exact stopsWith_of_divide hrun hstop (fun h0 => ⟨rs1, rs2, rd, h1, h2, h3, hold, h0⟩)
      (fun hov => ⟨rs1, rs2, rd, h1, h2, h3, hold, hov⟩)
  | jmp r =>
    have hr := lt_of_wellFormed rfl hwf
    cases (exec_jmp_of_lt hr).symm.trans hexec
    exact stopsWith_of_jumpTo hrun hstop fun hneg => ⟨r, hr, .inl ⟨hold, hneg⟩⟩
  | jmpf r =>
    have hr := lt_of_wellFormed rfl hwf
    cases (exec_jmpf_of_lt hr).symm.trans hexec
    exact stopsWith_of_jumpTo hrun hstop fun hneg => ⟨r, hr, .inr (.inl ⟨hold, hneg⟩)⟩
  | jmpb r =>
    have hr := lt_of_wellFormed rfl hwf
    cases (exec_jmpb_of_lt hr).symm.trans hexec
    exact stopsWith_of_jumpTo hrun hstop fun hneg => ⟨r, hr, .inr (.inr (.inl ⟨hold, hneg⟩))⟩
  | jeq r f =>
    have hr := lt_of_wellFormed rfl hwf
    have hfits : f.isNone = s.eq := by simpa [Instr.fitsFlag] using hold.1
    cases f with
    | some f =>
      cases (exec_jeq_of_not_taken (some f) hr hfits.symm).symm.trans hexec
      exact absurd hrun hstop
    | none =>
      cases (exec_jeq_of_taken none hr hfits.symm).symm.trans hexec
      exact stopsWith_of_jumpTo hrun hstop fun hneg => ⟨r, hr, .inr (.inr (.inr (.inl ⟨hold, hneg⟩)))⟩
  | jneq r f =>
    have hr := lt_of_wellFormed rfl hwf
    have hfits : f.isSome = s.eq := by simpa [Instr.fitsFlag] using hold.1
    cases f with
    | some f =>
      cases (exec_jneq_of_not_taken (some f) hr hfits.symm).symm.trans hexec
      exact absurd hrun hstop
    | none =>
      cases (exec_jneq_of_taken none hr hfits.symm).symm.trans hexec
      exact stopsWith_of_jumpTo hrun hstop fun hneg => ⟨r, hr, .inr (.inr (.inr (.inr ⟨hold, hneg⟩)))⟩

/-- A step that stops a running core meets the condition of the cause it ends with. -/
theorem stopsWith_of_step {s t : State} (hrun : s.status.cause = .running) (hstep : step s = .next t)
    (hstop : t.status.cause ≠ .running) : s.StopsWith t.status.cause := by
  rcases stepWith_running_cases (m := Config.opcodeMap) hrun with ⟨hend, ended⟩ | ⟨b, hread, hop, illegal⟩ |
    ⟨b, op, hread, hop, hlen, truncated⟩ | ⟨i, hold, executed⟩
  · cases ended.symm.trans hstep
    exact hend
  · cases illegal.symm.trans hstep
    exact ⟨b, hread, hop⟩
  · cases truncated.symm.trans hstep
    exact ⟨b, op, hread, hop, hlen⟩
  · cases hwf : i.wellFormed with
    | true => exact stopsWith_of_exec hrun hold hwf (executed.symm.trans hstep) hstop
    | false =>
      obtain ⟨b, hb⟩ := exists_firstBadReg hwf
      cases (step_badRegister hrun hold hb).symm.trans hstep
      exact ⟨i, hold, hwf⟩

/-- A step of a running core ends with a stop cause exactly when the condition of that cause holds before it. -/
theorem cause_eq_iff_stopsWith {s t : State} {c : Cause} (hrun : s.status.cause = .running) (hstep : step s = .next t)
    (hc : c ≠ .running) : t.status.cause = c ↔ s.StopsWith c := by
  refine ⟨?_, cause_eq_of_stopsWith hrun hstep⟩
  rintro rfl
  exact stopsWith_of_step hrun hstep hc

/-! ## INFO -/

/-- What INFO holds after a stop: the opcode byte, the first bad index byte, or 0 (R32). -/
theorem info_of_step {s t : State} (hrun : s.status.cause = .running) (hstep : step s = .next t) :
    (t.status.cause = .illegalOpcode → s.prog.read s.pc = .ok t.status.info) ∧
    (t.status.cause = .badRegister →
      ∃ i : Instr, s.HoldsAtPc Config.opcodeMap i ∧ i.firstBadReg = some t.status.info) ∧
    (t.status.cause ≠ .illegalOpcode → t.status.cause ≠ .badRegister → t.status.cause ≠ .running →
      t.status.info = 0#8) := by
  rcases stepWith_running_cases (m := Config.opcodeMap) hrun with ⟨_, ended⟩ | ⟨b, hread, _, illegal⟩ |
    ⟨_, _, _, _, _, truncated⟩ | ⟨i, hold, executed⟩
  · cases ended.symm.trans hstep
    exact ⟨nofun, nofun, fun _ _ _ => rfl⟩
  · cases illegal.symm.trans hstep
    exact ⟨fun _ => hread, nofun, fun h _ _ => absurd rfl h⟩
  · cases truncated.symm.trans hstep
    exact ⟨nofun, nofun, fun _ _ _ => rfl⟩
  · cases effect_of_exec (executed.symm.trans hstep) with
    | fault c info hc hinfo =>
      refine ⟨?_, fun h => ⟨i, hold, (if_pos h).mp hinfo⟩, fun _ h _ => (if_neg h).mp hinfo⟩
      rintro rfl
      simp at hc
    | halt _ => exact ⟨nofun, nofun, fun _ _ _ => rfl⟩
    | reg | div | flag | jump => simp [hrun]

/-- Settles O17: each cause is decided by its condition (`cause_eq_iff_stopsWith`), INFO by `info_of_step`. -/
theorem stopCausesClassified : Obligations.StopCausesClassified := by
  intro s t hrun hstep
  have hcause {c : Cause} (hc : c ≠ .running) : t.status.cause = c ↔ s.StopsWith c :=
    cause_eq_iff_stopsWith hrun hstep hc
  obtain ⟨illegal, badRegister, other⟩ := info_of_step hrun hstep
  exact ⟨hcause (by decide), hcause (by decide), illegal, hcause (by decide), hcause (by decide), badRegister,
    hcause (by decide), hcause (by decide), hcause (by decide), hcause (by decide), other⟩

end Sys2Proof.Machine
end

section
/-! PROOFS. Frames of the instructions (10_state.md sections 1 to 5): which fields an instruction writes, and which it reads. -/

namespace Sys2Proof.Machine

/-! ## What an instruction writes -/

/-- Settles O41: of the effects of an instruction only `reg` and `div` write a register, and it is the destination. -/
theorem onlyDestinationRegisterChanges : Obligations.OnlyDestinationRegisterChanges := by
  intro i s t k hk hexec hdest
  cases effect_of_exec hexec with
  | reg d v hi =>
    have other (h : d.val ≠ k) : (s.setReg d v).x[k] = s.x[k] := (getElem_setReg s d v k hk).trans (if_neg h)
    rcases hi with ⟨_, _, rfl, hd⟩ | ⟨_, _, _, rfl, hd⟩ | ⟨_, _, _, rfl, hd⟩ | ⟨_, _, _, rfl, hd⟩ <;>
      exact other (hd ▸ hdest)
  | div d q r hi =>
    obtain ⟨_, _, _, rfl, hd⟩ := hi
    exact (getElem_setReg s d q k hk).trans (if_neg (hd ▸ hdest))
  | fault | halt | flag | jump => rfl

/-- Settles O42: of the effects of an instruction only `flag` writes `eq`. -/
theorem onlyComparisonsWriteEq : Obligations.OnlyComparisonsWriteEq := by
  intro i s t hexec hne
  cases effect_of_exec hexec with
  | flag b hi => exact hi
  | fault | halt | reg | div | jump => exact absurd rfl hne

/-- Settles O43: of the effects of an instruction only `div` writes `rem`, and it is the effect of a DIV that completes. -/
theorem onlyCompletedDivWritesRem : Obligations.OnlyCompletedDivWritesRem := by
  intro i s t hexec hne
  cases effect_of_exec hexec with
  | div d q r hi =>
    obtain ⟨_, _, _, rfl, _⟩ := hi
    exact ⟨rfl, rfl, rfl⟩
  | fault | halt | reg | flag | jump => exact absurd rfl hne

/-- Settles O44: of the effects of an instruction only `fault` and `halt` write STATUS. -/
theorem onlyStopsWriteStatus : Obligations.OnlyStopsWriteStatus := by
  intro i s t hexec hne
  cases effect_of_exec hexec with
  | fault c info hc _ => exact .inr ⟨hc, rfl⟩
  | halt hi => exact .inl ⟨hi, rfl⟩
  | reg | div | flag | jump => exact absurd rfl hne

/-! ## What an instruction reads -/

/-- `f` writes one field that is neither a register, nor `pc`, STATUS or the program: its order with every other write does
not matter, and a later write of the same field covers it. -/
structure FieldWrite (f : State → State) : Prop where
  reg : ∀ s i, (f s).reg i = s.reg i
  pc : ∀ s, (f s).pc = s.pc
  setReg : ∀ s i v, (f s).setReg i v = f (s.setReg i v)
  setPc : ∀ s n, (f s).setPc n = f (s.setPc n)
  setStatus : ∀ s c info, (f s).setStatus c info = f (s.setStatus c info)
  setEq : ∀ s b, (f s).setEq b = s.setEq b ∨ (f s).setEq b = f (s.setEq b)
  setRem : ∀ s v, (f s).setRem v = s.setRem v ∨ (f s).setRem v = f (s.setRem v)

theorem fieldWrite_setEq (b : Bool) : FieldWrite (·.setEq b) where
  reg _ _ := rfl
  pc _ := rfl
  setReg _ _ _ := rfl
  setPc _ _ := rfl
  setStatus _ _ _ := rfl
  setEq _ _ := .inl rfl
  setRem _ _ := .inr rfl

theorem fieldWrite_setRem (v : Word) : FieldWrite (·.setRem v) where
  reg _ _ := rfl
  pc _ := rfl
  setReg _ _ _ := rfl
  setPc _ _ := rfl
  setStatus _ _ _ := rfl
  setEq _ _ := .inr rfl
  setRem _ _ := .inl rfl

/-- `u`, reached with `f` applied before, is `t`, reached without it, or differs from it by `f` alone. -/
def SameUpTo (f : State → State) (t u : State) : Prop := u = t ∨ u = f t

namespace FieldWrite

variable {f : State → State} (hf : FieldWrite f) (s : State)
include hf

theorem advance (n : Nat) : (f s).advance n = f (s.advance n) := by
  simp only [advance_eq, hf.pc, hf.setPc]

theorem sameUpTo_advance {t u : State} (n : Nat) (h : SameUpTo f t u) : SameUpTo f (t.advance n) (u.advance n) := by
  rcases h with rfl | rfl
  · exact .inl rfl
  · exact .inr (hf.advance t n)

theorem jumpTo (n : Int) : (f s).jumpTo n = f (s.jumpTo n) := by
  unfold State.jumpTo
  split
  · exact hf.setStatus s .jumpUnderflow 0#8
  · exact hf.setPc s n.toNat

theorem nextAddress : (f s).nextAddress = s.nextAddress := by
  simp only [State.nextAddress, hf.pc]

theorem sameUpTo_withReg {b : Byte} {k k' : Fin 32 → State} (hk : ∀ i, SameUpTo f (k i) (k' i)) :
    SameUpTo f (s.withReg b k) ((f s).withReg b k') := by
  unfold State.withReg
  split
  · exact hk _
  · exact .inr (hf.setStatus s .badRegister b)

theorem sameUpTo_withRRR {rs1 rs2 rd : Byte} {k k' : Word → Word → Fin 32 → State}
    (hk : ∀ a b d, SameUpTo f (k a b d) (k' a b d)) :
    SameUpTo f (s.withRRR rs1 rs2 rd k) ((f s).withRRR rs1 rs2 rd k') := by
  unfold State.withRRR
  refine hf.sameUpTo_withReg s fun i => hf.sameUpTo_withReg s fun j => hf.sameUpTo_withReg s fun d => ?_
  rw [hf.reg, hf.reg]
  exact hk _ _ d

theorem sameUpTo_compare (rs1 rs2 : Byte) (rel : Word → Word → Bool) :
    SameUpTo f (s.compare rs1 rs2 rel) ((f s).compare rs1 rs2 rel) := by
  unfold State.compare
  refine hf.sameUpTo_withReg s fun i => hf.sameUpTo_withReg s fun j => hf.sameUpTo_advance 4 ?_
  rw [hf.reg, hf.reg]
  exact hf.setEq s _

theorem sameUpTo_setReg_advance (d : Fin 32) (v : Word) :
    SameUpTo f ((s.setReg d v).advance 4) (((f s).setReg d v).advance 4) :=
  .inr (by rw [hf.setReg, hf.advance])

theorem sameUpTo_divide (a b : Word) (d : Fin 32) : SameUpTo f (s.divide a b d) ((f s).divide a b d) := by
  unfold State.divide
  split
  · exact .inr (hf.setStatus s .divByZero 0#8)
  · split
    · exact .inr (hf.setStatus s .divOverflow 0#8)
    · rw [hf.setReg]
      exact hf.sameUpTo_advance 4 (hf.setRem _ _)

theorem sameUpTo_withReg_jumpTo {r : Byte} {target : Fin 32 → Int} {target' : Fin 32 → Int}
    (h : ∀ i, target' i = target i) :
    SameUpTo f (s.withReg r fun i => s.jumpTo (target i)) ((f s).withReg r fun i => (f s).jumpTo (target' i)) :=
  hf.sameUpTo_withReg s fun i => .inr (by rw [h, hf.jumpTo])

theorem sameUpTo_branch (r : Byte) (taken : Bool) : SameUpTo f (s.branch r taken) ((f s).branch r taken) := by
  unfold State.branch
  refine hf.sameUpTo_withReg s fun i => .inr ?_
  rw [hf.reg, hf.jumpTo, hf.advance, apply_ite f]

/-- An instruction that does not read the field that `f` writes does not depend on it. Only the conditional jumps read `eq`,
and no instruction reads `rem`. -/
theorem exec_sameUpTo {i : Instr} (hi : (i.op ≠ .jeq ∧ i.op ≠ .jneq) ∨ (f s).eq = s.eq) :
    ∃ t u, exec i s = .next t ∧ exec i (f s) = .next u ∧ SameUpTo f t u := by
  cases i with
  | load => exact ⟨_, _, rfl, rfl, hf.sameUpTo_withReg s fun d => hf.sameUpTo_setReg_advance s d _⟩
  | add | sub | mul => exact ⟨_, _, rfl, rfl, hf.sameUpTo_withRRR s fun _ _ d => hf.sameUpTo_setReg_advance s d _⟩
  | div => exact ⟨_, _, rfl, rfl, hf.sameUpTo_withRRR s fun a b d => hf.sameUpTo_divide s a b d⟩
  | hlt => exact ⟨_, _, rfl, rfl, .inr (by rw [hf.advance]; exact hf.setStatus _ .halt 0#8)⟩
  | jmp => exact ⟨_, _, rfl, rfl, hf.sameUpTo_withReg_jumpTo s fun j => by rw [hf.reg]⟩
  | jmpf | jmpb => exact ⟨_, _, rfl, rfl, hf.sameUpTo_withReg_jumpTo s fun j => by rw [hf.reg, hf.nextAddress]⟩
  | eq | neq | gt | lt | gtq | ltq => exact ⟨_, _, rfl, rfl, hf.sameUpTo_compare s _ _ _⟩
  | jeq r | jneq r =>
    have heq : (f s).eq = s.eq := by simpa [Instr.op] using hi
    exact ⟨_, _, rfl, rfl, heq ▸ hf.sameUpTo_branch s r _⟩

/-- The same, said of a next state. -/
theorem exec_of_exec {i : Instr} {t : State} (hi : (i.op ≠ .jeq ∧ i.op ≠ .jneq) ∨ (f s).eq = s.eq)
    (h : exec i s = .next t) : exec i (f s) = .next t ∨ exec i (f s) = .next (f t) := by
  obtain ⟨_, u, ht, hu, hsame⟩ := hf.exec_sameUpTo s hi
  cases ht.symm.trans h
  rcases hsame with rfl | rfl
  · exact .inl hu
  · exact .inr hu

end FieldWrite

/-- Settles O45: a write of the flag is a `FieldWrite`, read by the conditional jumps alone. -/
theorem eqReadOnlyByConditionalJumps : Obligations.EqReadOnlyByConditionalJumps :=
  fun _ s _ b hjeq hjneq h => (fieldWrite_setEq b).exec_of_exec s (.inl ⟨hjeq, hjneq⟩) h

/-- Settles O46: a write of `rem` is a `FieldWrite` that keeps the flag. -/
theorem remReadByNoInstruction : Obligations.RemReadByNoInstruction :=
  fun _ s _ v h => (fieldWrite_setRem v).exec_of_exec s (.inr rfl) h

end Sys2Proof.Machine
end

section
/-! PROOFS. The invariant (10_state.md sections 2 and 5): where an instruction can leave `pc` and STATUS, that every step and
every host operation keeps the invariant, and so every state the host can reach has it. -/

namespace Sys2Proof.Machine

/-! ## Where a step leaves `pc` -/

/-- An instruction leaves `pc` at itself or past its own bytes, or it is a jump, whose target lies at most 2^31 past its 2
bytes. -/
theorem Effect.pc_le {i : Instr} {s t : State} (h : Effect i s t) :
    t.pc ≤ s.pc + i.op.length s.eq ∨
    ((i.op = .jmp ∨ i.op = .jmpf ∨ i.op = .jmpb ∨ i.op = .jeq ∨ i.op = .jneq) ∧ t.pc ≤ s.pc + 2 + 2 ^ 31) := by
  cases h with
  | fault => exact .inl (Nat.le_add_right _ _)
  | halt hi =>
    subst hi
    exact .inl (Nat.le_refl _)
  | reg d v hi =>
    rcases hi with ⟨_, _, rfl, _⟩ | ⟨_, _, _, rfl, _⟩ | ⟨_, _, _, rfl, _⟩ | ⟨_, _, _, rfl, _⟩ <;>
      exact .inl (Nat.le_refl _)
  | div d q r hi =>
    obtain ⟨_, _, _, rfl, _⟩ := hi
    exact .inl (Nat.le_refl _)
  | flag b hi =>
    rcases hi with hi | hi | hi | hi | hi | hi <;> rw [hi] <;> exact .inl (Nat.le_refl _)
  | jump n hi hn =>
    refine .inr ⟨hi, ?_⟩
    rw [setPc_pc]
    omega

/-- A jump is at least 2 bytes long. -/
theorem two_le_length_of_jump {op : Op} (eq : Bool)
    (h : op = .jmp ∨ op = .jmpf ∨ op = .jmpb ∨ op = .jeq ∨ op = .jneq) : 2 ≤ op.length eq := by
  rcases h with rfl | rfl | rfl | rfl | rfl <;> cases eq <;> decide

/-- A step moves `pc` only from within the program, to at most 2^31 past its end. -/
theorem step_pc_le {s t : State} (hstep : step s = .next t) : t.pc = s.pc ∨ t.pc ≤ s.prog.len + 2 ^ 31 := by
  by_cases hrun : s.status.cause = .running
  · rcases stepWith_running_cases (m := Config.opcodeMap) hrun with ⟨_, ended⟩ | ⟨_, hread, _, illegal⟩ |
      ⟨_, _, _, _, _, truncated⟩ | ⟨i, hold, executed⟩
    · cases ended.symm.trans hstep
      exact .inl rfl
    · cases illegal.symm.trans hstep
      have := lt_len_of_read hread
      rw [setStatus_pc, setPc_pc]
      omega
    · cases truncated.symm.trans hstep
      exact .inl rfl
    · have hlen := length_le_of_holdsAtPc hold
      rcases (effect_of_exec (executed.symm.trans hstep)).pc_le with hpc | ⟨hjump, hpc⟩
      · omega
      · have := two_le_length_of_jump s.eq hjump
        omega
  · cases (stepWith_of_halted hrun).symm.trans hstep
    exact .inl rfl

/-- Settles O52: `step_pc_le`, with L at most MAX_PROG_LEN. -/
theorem pcNeverWraps : Obligations.PcNeverWraps := by
  rintro s t ⟨_, hlen, _, _⟩ hstep
  have hlen' : s.prog.len ≤ 2 ^ 32 - 1 := hlen
  have := step_pc_le hstep
  omega

/-- Settles O53: an instruction that is no jump leaves `pc` within or just past its own bytes, which are below L. -/
theorem nonJumpStaysInProgram : Obligations.NonJumpStaysInProgram := by
  intro s t i hrun hold hjmp hjmpf hjmpb hjeq hjneq hstep
  rw [step_prog_eq hstep]
  have hlen := length_le_of_holdsAtPc hold
  rcases (effect_of_exec ((stepWith_of_holdsAtPc hrun hold).symm.trans hstep)).pc_le with hpc | ⟨hjump, _⟩
  · exact hpc.trans hlen
  · rcases hjump with h | h | h | h | h
    · exact absurd h hjmp
    · exact absurd h hjmpf
    · exact absurd h hjmpb
    · exact absurd h hjeq
    · exact absurd h hjneq

/-! ## INFO agrees with CAUSE -/

theorem Effect.status_legal {i : Instr} {s t : State} (h : Effect i s t) (hs : s.status.legal = true) :
    t.status.legal = true := by
  cases h with
  | fault c info hc hinfo =>
    rcases hc with rfl | rfl | rfl | rfl
    · exact decide_eq_true (le_of_firstBadReg hinfo)
    all_goals exact decide_eq_true hinfo
  | halt => rfl
  | reg | div | flag | jump => exact hs

theorem step_status_legal {s t : State} (hs : s.status.legal = true) (hstep : step s = .next t) :
    t.status.legal = true := by
  by_cases hrun : s.status.cause = .running
  · rcases stepWith_running_cases (m := Config.opcodeMap) hrun with ⟨_, ended⟩ | ⟨_, _, hop, illegal⟩ |
      ⟨_, _, _, _, _, truncated⟩ | ⟨i, _, executed⟩
    · cases ended.symm.trans hstep
      rfl
    · cases illegal.symm.trans hstep
      exact Option.isNone_iff_eq_none.mpr hop
    · cases truncated.symm.trans hstep
      rfl
    · exact (effect_of_exec (executed.symm.trans hstep)).status_legal hs
  · cases (stepWith_of_halted hrun).symm.trans hstep
    exact hs

/-! ## The invariant -/

/-- Settles O49: the program is kept, `pc` stays where it was or within the bound of O52, and STATUS stays legal. -/
theorem stepKeepsInvariant : Obligations.StepKeepsInvariant := by
  intro s t hinv hstep
  have hprog := step_prog_eq hstep
  have hpc' := pcNeverWraps s t hinv hstep
  obtain ⟨hwf, hlen, hpc, hlegal⟩ := hinv
  refine ⟨hprog ▸ hwf, hprog ▸ hlen, ?_, step_status_legal hlegal hstep⟩
  rcases hpc' with h | h
  · exact h ▸ hpc
  · exact Nat.lt_of_le_of_lt h (by decide)

/-- Settles O48: the empty store is canonical, and every bound holds at 0. -/
theorem resetHasInvariant : Obligations.ResetHasInvariant :=
  ⟨reset_prog_wf, by decide, by decide, rfl⟩

/-- `load` builds a canonical store of a length it accepts, or changes nothing. -/
theorem load_inv {s : State} (bs : List Byte) (h : s.Inv) : (s.load bs).Inv := by
  obtain ⟨hwf, hlen, hpc, hlegal⟩ := h
  by_cases hbs : bs.length ≤ Config.maxProgLen
  · rw [load_of_length_le hbs]
    exact ⟨ofBytes_wf bs, hbs, hpc, rfl⟩
  · rw [State.load, if_neg hbs]
    exact ⟨hwf, hlen, hpc, hlegal⟩

/-- Settles O50: each poke writes a field the invariant does not speak of, or `pc` with 33 bits. -/
theorem hostOperationsKeepInvariant : Obligations.HostOperationsKeepInvariant := by
  intro op s t hinv h
  cases op with
  | new => cases h; exact resetHasInvariant
  | load bs => cases h; exact load_inv bs hinv
  | step => exact stepKeepsInvariant s t hinv h
  | pokeReg i v => cases h; exact hinv
  | pokePc v =>
    cases h
    obtain ⟨hwf, hlen, _, hlegal⟩ := hinv
    exact ⟨hwf, hlen, v.isLt, hlegal⟩
  | pokeRem v => cases h; exact hinv
  | pokeEq b => cases h; exact hinv

/-- What every one of some host operations keeps, all of them one after the other keep. -/
theorem hostApplyAll_keeps {P : State → Prop} {ops : List HostOp}
    (hop : ∀ op ∈ ops, ∀ s t, P s → hostApply op s = .next t → P t) {s t : State} (hs : P s)
    (h : hostApplyAll ops s = .next t) : P t := by
  induction ops generalizing s with
  | nil =>
    cases h
    exact hs
  | cons op ops ih =>
    simp only [hostApplyAll] at h
    cases hu : hostApply op s with
    | next u =>
      rw [hu] at h
      exact ih (fun op' hmem => hop op' (List.mem_cons_of_mem op hmem)) (hop op List.mem_cons_self s u hs hu) h
    | fault f => rw [hu] at h; cases h
    | refused r => rw [hu] at h; cases h

theorem hostApply_total (op : HostOp) (s : State) : ∃ t, hostApply op s = .next t := by
  cases op with
  | step => exact stepWith_total Config.opcodeMap s
  | new | load | pokeReg | pokePc | pokeRem | pokeEq => exact ⟨_, rfl⟩

theorem hostApplyAll_total (ops : List HostOp) (s : State) : ∃ t, hostApplyAll ops s = .next t := by
  induction ops generalizing s with
  | nil => exact ⟨s, rfl⟩
  | cons op ops ih =>
    obtain ⟨u, hu⟩ := hostApply_total op s
    obtain ⟨t, ht⟩ := ih u
    exact ⟨t, by simp only [hostApplyAll, hu, ht]⟩

/-- Settles O51: reset has the invariant and every host operation keeps it and answers a next state. -/
theorem reachableStatesHaveInvariant : Obligations.ReachableStatesHaveInvariant := by
  refine ⟨?_, fun ops => hostApplyAll_total ops State.reset⟩
  rintro s ⟨ops, h⟩
  exact hostApplyAll_keeps (P := State.Inv) (fun op _ => hostOperationsKeepInvariant op) resetHasInvariant h

end Sys2Proof.Machine
end

section
/-! PROOFS. The program store as data (log 2) and the host's operations (70_reset_and_hazards.md): `load`, `poke`, `run`, what
leaves a halt, and the 16-bit view of STATUS (10_state.md section 5). -/

namespace Sys2Proof.Machine

/-! ## Canonical stores -/

theorem cellsOk_cons_iff {lo len : Nat} {c : Host.Cell} {rest : List Host.Cell} :
    cellsOk lo len (c :: rest) = true ↔
      lo ≤ c.1 ∧ c.1 < len ∧ c.2 ≠ Memory.unlisted ∧ cellsOk (c.1 + 1) len rest = true := by
  simp [cellsOk, and_assoc]

/-- Nothing is listed at or beyond the length of a canonical list. -/
theorem lookupCell_of_le {lo len a : Nat} {cells : List Host.Cell} (ok : cellsOk lo len cells = true) (h : len ≤ a) :
    lookupCell cells a = Memory.unlisted := by
  induction cells generalizing lo with
  | nil => rfl
  | cons c rest ih =>
    obtain ⟨_, hlt, _, hrest⟩ := cellsOk_cons_iff.mp ok
    have hne : c.1 ≠ a := by omega
    rw [lookupCell, if_neg hne, ih hrest]

/-- The first address of a canonical list reads as the byte listed there. -/
theorem lookupCell_head_ne {lo len : Nat} {c : Host.Cell} {rest : List Host.Cell}
    (ok : cellsOk lo len (c :: rest) = true) : lookupCell (c :: rest) c.1 ≠ Memory.unlisted := by
  obtain ⟨_, _, hne, _⟩ := cellsOk_cons_iff.mp ok
  rwa [lookupCell, if_pos rfl]

/-- A canonical list lists nothing before its first address. -/
theorem lookupCell_cons_below {lo len a : Nat} {c : Host.Cell} {rest : List Host.Cell}
    (ok : cellsOk lo len (c :: rest) = true) (h : a < c.1) : lookupCell (c :: rest) a = Memory.unlisted := by
  obtain ⟨_, hentry⟩ := cellsOk_cons_iff.mp ok
  exact lookupCell_below (cellsOk_cons_iff.mpr ⟨Nat.le_refl c.1, hentry⟩) h

/-- Canonical lists that read alike are equal: both start at the first address that reads as a listed byte. -/
theorem cells_eq_of_lookupCell_eq {lo lo' len : Nat} {xs ys : List Host.Cell} (hxs : cellsOk lo len xs = true)
    (hys : cellsOk lo' len ys = true) (h : ∀ a, lookupCell xs a = lookupCell ys a) : xs = ys := by
  induction xs generalizing lo lo' ys with
  | nil =>
    cases ys with
    | nil => rfl
    | cons d ys => exact absurd (h d.1).symm (lookupCell_head_ne hys)
  | cons c xs ih =>
    cases ys with
    | nil => exact absurd (h c.1) (lookupCell_head_ne hxs)
    | cons d ys =>
      have haddr : c.1 = d.1 := by
        rcases Nat.lt_trichotomy c.1 d.1 with hlt | heq | hgt
        · exact absurd ((h c.1).trans (lookupCell_cons_below hys hlt)) (lookupCell_head_ne hxs)
        · exact heq
        · exact absurd ((h d.1).symm.trans (lookupCell_cons_below hxs hgt)) (lookupCell_head_ne hys)
      have hbyte : c.2 = d.2 := by simpa [lookupCell, haddr] using h c.1
      obtain ⟨_, _, _, hxs⟩ := cellsOk_cons_iff.mp hxs
      obtain ⟨_, _, _, hys⟩ := cellsOk_cons_iff.mp hys
      have hrest (a : Nat) : lookupCell xs a = lookupCell ys a := by
        by_cases ha : c.1 = a
        · rw [lookupCell_below hxs (by omega), lookupCell_below hys (by omega)]
        · simpa [lookupCell, ha, ← haddr] using h a
      rw [Prod.ext haddr hbyte, ih hxs hys hrest]

/-- The addresses that answer a read fix the length. -/
theorem len_le_of_read_eq {m n : Memory} (h : ∀ a, m.read a = n.read a) : m.len ≤ n.len := by
  by_contra hlt
  have hread := h n.len
  rw [read_of_lt (by omega), read_of_le (Nat.le_refl _)] at hread
  cases hread

/-- Settles O55: the lengths agree, and the cells are canonical lists that read alike. -/
theorem programStoreCanonical : Obligations.ProgramStoreCanonical := by
  rintro ⟨xs, len⟩ ⟨ys, len'⟩ hm hn hread
  obtain rfl : len = len' :=
    Nat.le_antisymm (len_le_of_read_eq hread) (len_le_of_read_eq fun a => (hread a).symm)
  have hlookup (a : Nat) : lookupCell xs a = lookupCell ys a := by
    rcases Nat.lt_or_ge a len with ha | ha
    · have hread_a := hread a
      rw [read_of_lt ha, read_of_lt ha] at hread_a
      exact Except.ok.inj hread_a
    · rw [lookupCell_of_le hm ha, lookupCell_of_le hn ha]
  exact congrArg (Memory.mk · len) (cells_eq_of_lookupCell_eq hm hn hlookup)

/-! ## `load` and `poke` -/

/-- Settles O54: within MAX_PROG_LEN the store is the one of the bytes given, beyond it nothing is done. -/
theorem loadReplacesProgram : Obligations.LoadReplacesProgram := by
  refine ⟨fun s bs hlen => ?_, fun s bs hlen => if_neg (Nat.not_le.mpr hlen)⟩
  rw [load_of_length_le hlen]
  exact ⟨rfl, rfl, rfl, rfl, rfl, rfl, fun _ ha => read_ofBytes ha, fun _ ha => read_of_le ha⟩

/-- Settles O56: each poke is the write of one field. -/
theorem pokeWritesOneThing : Obligations.PokeWritesOneThing :=
  fun _ _ _ _ _ => ⟨rfl, rfl, rfl, rfl⟩

/-- A host operation on a halted core, but for `new` and `load`, keeps STATUS: a step stops at once and no poke writes it. -/
theorem hostApply_status_eq {op : HostOp} {s t : State} (hhalt : s.status.cause ≠ .running) (hnew : op ≠ .new)
    (hload : ∀ bs, op ≠ .load bs) (h : hostApply op s = .next t) : t.status = s.status := by
  cases op with
  | new => exact absurd rfl hnew
  | load bs => exact absurd rfl (hload bs)
  | step =>
    cases (stepWith_of_halted hhalt).symm.trans h
    rfl
  | pokeReg i v => cases h; exact setReg_status s i v
  | pokePc v => cases h; exact setPc_status s v.toNat
  | pokeRem v => cases h; exact setRem_status s v
  | pokeEq b => cases h; exact setEq_status s b

/-- Settles O57: each operation keeps STATUS and the program of a halted core, so all of them do. -/
theorem haltLeftOnlyByLoadOrNew : Obligations.HaltLeftOnlyByLoadOrNew := by
  intro ops s t hhalt hops h
  refine hostApplyAll_keeps (P := fun u => u.status = s.status ∧ u.prog = s.prog) ?_ ⟨rfl, rfl⟩ h
  rintro op hmem u v ⟨hstatus, hprog⟩ hstep
  obtain ⟨hnew, hload⟩ := hops op hmem
  exact ⟨(hostApply_status_eq (hstatus ▸ hhalt) hnew hload hstep).trans hstatus,
    (hostApply_prog_eq hnew hload hstep).trans hprog⟩

/-! ## Reset -/

/-- Settles O47: the fields are those of the definition, and L is 0, so the first step is END. -/
theorem resetState : Obligations.ResetState :=
  ⟨fun _ _ => Vector.getElem_replicate _, rfl, rfl, rfl, rfl, rfl, rfl,
    hostStep_of_step (stepWith_of_end rfl (Nat.le_refl 0))⟩

/-! ## `run` -/

/-- One step of a run: it ends there when the core is halted, and goes on otherwise. -/
theorem hostRun_succ {k : Nat} {s t : State} (h : step s = .next t) :
    hostRun (k + 1) s = if t.halted then some t else hostRun k t := by
  simp only [hostRun, hostStep_of_step h]
  cases t.halted <;> rfl

theorem hostRun_of_halted {k : Nat} {s : State} (h : s.status.cause ≠ .running) : hostRun (k + 1) s = some s := by
  rw [hostRun_succ (stepWith_of_halted h), if_pos ((halted_iff s).mpr h)]

/-- Steps of a halted core change nothing, however many. -/
theorem core_run_of_halted {k : Nat} {s : State} (h : s.status.cause ≠ .running) :
    Sys2Proof.core.run k s = .next s := by
  induction k with
  | zero => rfl
  | succ k ih => rw [core_run_succ (stepWith_of_halted h), ih]

/-- A run ends in a halted state, which some number of steps within the fuel reaches. -/
theorem core_run_of_hostRun {k : Nat} {s t : State} (h : hostRun k s = some t) :
    t.status.cause ≠ .running ∧ ∃ j, j ≤ k ∧ Sys2Proof.core.run j s = .next t := by
  induction k generalizing s with
  | zero => cases h
  | succ k ih =>
    obtain ⟨u, hu⟩ := stepWith_total Config.opcodeMap s
    rw [hostRun_succ hu] at h
    split at h
    · next hhalted =>
      cases h
      exact ⟨(halted_iff _).mp hhalted, 1, by omega, core_run_succ hu⟩
    · obtain ⟨hcause, j, hj, hrun⟩ := ih h
      exact ⟨hcause, j + 1, by omega, (core_run_succ hu).trans hrun⟩

/-- A halted state that `k` steps reach is where a run ends, with fuel for the step that finds the core halted. -/
theorem hostRun_of_core_run {k : Nat} {s t : State} (h : Sys2Proof.core.run k s = .next t)
    (hhalt : t.status.cause ≠ .running) : hostRun (k + 1) s = some t := by
  induction k generalizing s with
  | zero =>
    cases h
    exact hostRun_of_halted hhalt
  | succ k ih =>
    obtain ⟨u, hu⟩ := stepWith_total Config.opcodeMap s
    rw [core_run_succ hu] at h
    rw [hostRun_succ hu]
    split
    · next hhalted =>
      cases (core_run_of_halted ((halted_iff u).mp hhalted)).symm.trans h
      rfl
    · exact ih h

/-- More fuel does not change where a run ends. -/
theorem hostRun_add {k n : Nat} {s t : State} (h : hostRun k s = some t) : hostRun (k + n) s = some t := by
  induction k generalizing s with
  | zero => cases h
  | succ k ih =>
    obtain ⟨u, hu⟩ := stepWith_total Config.opcodeMap s
    rw [hostRun_succ hu] at h
    rw [Nat.succ_add, hostRun_succ hu]
    split at h
    · next hhalted => rw [if_pos hhalted, h]
    · next hrunning => rw [if_neg hrunning, ih h]

/-- Settles O58: each part by induction on the fuel or the number of steps, one step at a time (`hostRun_succ`). -/
theorem runStepsUntilHalted : Obligations.RunStepsUntilHalted :=
  ⟨fun _ _ _ => core_run_of_hostRun, fun _ _ _ => hostRun_of_core_run, fun _ _ _ _ => hostRun_add,
    fun _ _ => hostRun_of_halted⟩

/-! ## STATUS as a word -/

theorem word_cause (st : Status) : st.word.extractLsb' 0 4 = st.cause.code := by
  rw [Status.word, BitVec.extractLsb'_append_eq_of_add_le (by decide),
    BitVec.extractLsb'_append_eq_of_add_le (by decide), BitVec.extractLsb'_eq_self]

theorem word_reserved (st : Status) : st.word.extractLsb' 4 4 = 0#4 := by
  rw [Status.word, BitVec.extractLsb'_append_eq_of_add_le (by decide),
    BitVec.extractLsb'_append_eq_of_le (by decide), BitVec.extractLsb'_eq_self]

theorem word_info (st : Status) : st.word.extractLsb' 8 8 = st.info := by
  rw [Status.word, BitVec.extractLsb'_append_eq_of_le (by decide), BitVec.extractLsb'_eq_self]

theorem code_le (c : Cause) : c.code.toNat ≤ 8 := by cases c <;> decide

theorem code_ne_zero_iff (c : Cause) : c.code ≠ 0#4 ↔ c ≠ .running := by cases c <;> decide

/-- The clean ends are HALT and END (R247). -/
theorem endedCleanly_iff (s : State) :
    s.endedCleanly = true ↔ s.status.cause.code = 1#4 ∨ s.status.cause.code = 2#4 := by
  simp only [State.endedCleanly, State.halted]
  cases s.status.cause <;> decide

/-- The faults are the codes from 3 on (R32). -/
theorem isFault_iff (c : Cause) : c.isFault = true ↔ 3 ≤ c.code.toNat := by cases c <;> decide

/-- Settles O59: the three fields of the word, and the classes of causes by their codes. -/
theorem statusWordLayout : Obligations.StatusWordLayout := by
  refine ⟨fun st => ⟨word_cause st, word_reserved st, word_info st, ?_⟩, fun s => ?_, rfl⟩
  · rw [word_cause]
    exact code_le st.cause
  · rw [word_cause]
    exact ⟨(halted_iff s).trans (code_ne_zero_iff _).symm, endedCleanly_iff s, isFault_iff _⟩

end Sys2Proof.Machine
end
